-- ==== Sys2Proof/Word.lean ====
section
/-! DEFINITION. The machine's word types (spec 00_scope R6, R7): every quantity is unsigned. -/

namespace Sys2Proof

/-- The unit of memory and the width of a general register, of DT and of ST (R6: XLEN = 8). -/
abbrev Byte := BitVec 8

/-- The width of `pc`, of `I`, of a return address and of an instruction word (R6). -/
abbrev Word := BitVec 16

/-- A register number: the X and the Y field name one of x[0] .. x[15] (R20). -/
abbrev Reg := Fin 16

/-- Register 15 in its second role, the flag register VF (R21). -/
abbrev regF : Reg := 15

end Sys2Proof
end

