-- ==== Sys2Proof/Syntax.lean ====
section
/-! DEFINITION. The instructions: one constructor per row of spec/opcode_table.json (30_encoding R76). -/

namespace Sys2Proof

/-- The 34 instructions of the dispatch table. `nn` is an 8-bit and `nnn` a 12-bit unsigned immediate (R75).
A number that is a COUNT, not an operand register (the rows of DXYN; the X of FX55 and FX65, 42 R154), is a Nat bounded by WellFormed.
8XY6 and 8XYE keep their Y field, which the operation ignores (R77), so that no bit of a word is lost. -/
inductive Instr where
  /-- 00E0: clear the display (43 R170). -/
  | cls
  /-- 00EE: return from subroutine (40 R100). -/
  | ret
  /-- 1NNN: jump (40 R101). -/
  | jp (nnn : BitVec 12)
  /-- 2NNN: call (40 R102). -/
  | call (nnn : BitVec 12)
  /-- 3XNN: skip if x[X] = NN (40 R104). -/
  | seImm (x : Reg) (nn : Byte)
  /-- 4XNN: skip if x[X] != NN (40 R105). -/
  | sneImm (x : Reg) (nn : Byte)
  /-- 5XY0: skip if x[X] = x[Y] (40 R106). -/
  | seReg (x y : Reg)
  /-- 6XNN: x[X] <- NN (41 R120). -/
  | ldImm (x : Reg) (nn : Byte)
  /-- 7XNN: x[X] <- x[X] + NN, no flag (41 R121). -/
  | addImm (x : Reg) (nn : Byte)
  /-- 8XY0: x[X] <- x[Y] (41 R122). -/
  | ldReg (x y : Reg)
  /-- 8XY1: bitwise or (41 R123). -/
  | or (x y : Reg)
  /-- 8XY2: bitwise and (41 R124). -/
  | and (x y : Reg)
  /-- 8XY3: bitwise exclusive or (41 R125). -/
  | xor (x y : Reg)
  /-- 8XY4: add with carry flag (41 R128). -/
  | addReg (x y : Reg)
  /-- 8XY5: x[X] - x[Y] with borrow flag (41 R129). -/
  | sub (x y : Reg)
  /-- 8XY6: shift right by one; Y ignored (41 R130). -/
  | shr (x y : Reg)
  /-- 8XY7: x[Y] - x[X] with borrow flag (41 R131). -/
  | subn (x y : Reg)
  /-- 8XYE: shift left by one; Y ignored (41 R132). -/
  | shl (x y : Reg)
  /-- 9XY0: skip if x[X] != x[Y] (40 R107). -/
  | sneReg (x y : Reg)
  /-- ANNN: I <- NNN (42 R150). -/
  | ldI (nnn : BitVec 12)
  /-- BNNN: jump to NNN + x[0] (40 R103). -/
  | jpV0 (nnn : BitVec 12)
  /-- CXNN: x[X] <- rnd AND NN (41 R134). -/
  | rnd (x : Reg) (nn : Byte)
  /-- DXYN: draw an 8 x N sprite (43 R172). -/
  | drw (x y : Reg) (rows : Nat)
  /-- EX9E: skip if key x[X] is pressed (44 R180). -/
  | skp (x : Reg)
  /-- EXA1: skip if key x[X] is not pressed (44 R181). -/
  | sknp (x : Reg)
  /-- FX07: x[X] <- DT (44 R182). -/
  | ldVxDt (x : Reg)
  /-- FX0A: wait for a key (44 R184). -/
  | ldVxK (x : Reg)
  /-- FX15: DT <- x[X] (44 R185). -/
  | ldDtVx (x : Reg)
  /-- FX18: ST <- x[X] (44 R186). -/
  | ldStVx (x : Reg)
  /-- FX1E: I <- I + x[X] with overflow flag (42 R151). -/
  | addI (x : Reg)
  /-- FX29: I <- address of the glyph x[X] (42 R152). -/
  | ldF (x : Reg)
  /-- FX33: store the decimal digits of x[X] (42 R153). -/
  | ldB (x : Reg)
  /-- FX55: store x[0] .. x[last] (42 R154). -/
  | stRegs (last : Nat)
  /-- FX65: load x[0] .. x[last] (42 R155). -/
  | ldRegs (last : Nat)
deriving DecidableEq, Repr

end Sys2Proof
end

