-- ==== Sys2Proof/WellFormed.lean ====
section
/-! DEFINITION. Which terms of `Instr` are instructions: every count fits its 4-bit field (30_encoding R71, R75). -/

namespace Sys2Proof

/-- The count an instruction carries, 0 where it carries none. Register numbers and immediates are bounded by their types; the counts are N of DXYN ("N rows tall, N∈[0,15]", 43 R172) and X of FX55 and FX65 (42 R154, R155). -/
def Instr.count (i : Instr) : Nat :=
  match i with
  | .drw _ _ rows => rows
  | .stRegs last  => last
  | .ldRegs last  => last
  | .cls | .ret => 0
  | .jp _ | .call _ | .ldI _ | .jpV0 _ => 0
  | .seImm _ _ | .sneImm _ _ | .ldImm _ _ | .addImm _ _ | .rnd _ _ => 0
  | .seReg _ _ | .sneReg _ _ | .ldReg _ _ | .or _ _ | .and _ _ | .xor _ _ => 0
  | .addReg _ _ | .sub _ _ | .shr _ _ | .subn _ _ | .shl _ _ => 0
  | .skp _ | .sknp _ | .ldVxDt _ | .ldVxK _ | .ldDtVx _ | .ldStVx _ => 0
  | .addI _ | .ldF _ | .ldB _ => 0

/-- Well-formed: the count fits the 4-bit field that encodes it (R71). -/
abbrev Instr.wf (i : Instr) : Prop := i.count < 16

end Sys2Proof
end

