-- ==== Sys2Proof/Decode.lean ====
section
/-! DEFINITION. Decoding, total on any word and any bytes, rejecting by name (30_encoding R70 to R74, R78; 20_memory R54), and the encoder, written from the same table (R72, R76). -/

namespace Sys2Proof

/-! ## Fields (R71) -/

/-- The leading nibble `F` = op[15:12]. -/
def fieldF (op : Word) : BitVec 4 := op.extractLsb' 12 4
/-- `X` = op[11:8], a register number. -/
def fieldX (op : Word) : Reg := ⟨(op.extractLsb' 8 4).toNat, (op.extractLsb' 8 4).isLt⟩
/-- `Y` = op[7:4], a register number. -/
def fieldY (op : Word) : Reg := ⟨(op.extractLsb' 4 4).toNat, (op.extractLsb' 4 4).isLt⟩
/-- `N` = op[3:0]. -/
def fieldN (op : Word) : BitVec 4 := op.extractLsb' 0 4
/-- `NN` = op[7:0]. -/
def fieldNN (op : Word) : Byte := op.extractLsb' 0 8
/-- `NNN` = op[11:0]. -/
def fieldNNN (op : Word) : BitVec 12 := op.extractLsb' 0 12

/-! ## Dispatch (R74): the leading nibble, then NNN, N or NN -/

/-- Leading nibble 0: only 00E0 and 00EE. -/
def decodeFamily0 (op : Word) : Option Instr :=
  match fieldNNN op with
  | 0x0E0#12 => some .cls
  | 0x0EE#12 => some .ret
  | _ => none

/-- Leading nibble 5: N must be 0. -/
def decodeFamily5 (op : Word) : Option Instr :=
  match fieldN op with
  | 0x0#4 => some (.seReg (fieldX op) (fieldY op))
  | _ => none

/-- Leading nibble 8: N selects the operation; 0x8 to 0xD and 0xF are invalid. -/
def decodeFamily8 (op : Word) : Option Instr :=
  match fieldN op with
  | 0x0#4 => some (.ldReg (fieldX op) (fieldY op))
  | 0x1#4 => some (.or (fieldX op) (fieldY op))
  | 0x2#4 => some (.and (fieldX op) (fieldY op))
  | 0x3#4 => some (.xor (fieldX op) (fieldY op))
  | 0x4#4 => some (.addReg (fieldX op) (fieldY op))
  | 0x5#4 => some (.sub (fieldX op) (fieldY op))
  | 0x6#4 => some (.shr (fieldX op) (fieldY op))
  | 0x7#4 => some (.subn (fieldX op) (fieldY op))
  | 0xE#4 => some (.shl (fieldX op) (fieldY op))
  | _ => none

/-- Leading nibble 9: N must be 0. -/
def decodeFamily9 (op : Word) : Option Instr :=
  match fieldN op with
  | 0x0#4 => some (.sneReg (fieldX op) (fieldY op))
  | _ => none

/-- Leading nibble E: NN is 0x9E or 0xA1. -/
def decodeFamilyE (op : Word) : Option Instr :=
  match fieldNN op with
  | 0x9E#8 => some (.skp (fieldX op))
  | 0xA1#8 => some (.sknp (fieldX op))
  | _ => none

/-- Leading nibble F: NN selects one of nine operations. -/
def decodeFamilyF (op : Word) : Option Instr :=
  match fieldNN op with
  | 0x07#8 => some (.ldVxDt (fieldX op))
  | 0x0A#8 => some (.ldVxK (fieldX op))
  | 0x15#8 => some (.ldDtVx (fieldX op))
  | 0x18#8 => some (.ldStVx (fieldX op))
  | 0x1E#8 => some (.addI (fieldX op))
  | 0x29#8 => some (.ldF (fieldX op))
  | 0x33#8 => some (.ldB (fieldX op))
  | 0x55#8 => some (.stRegs (fieldX op).val)
  | 0x65#8 => some (.ldRegs (fieldX op).val)
  | _ => none

/-- The instruction a word selects, or `none`: "any other pattern | fatal: invalid instruction" (R74, R78). -/
def decodeWord (op : Word) : Option Instr :=
  match fieldF op with
  | 0x0#4 => decodeFamily0 op
  | 0x1#4 => some (.jp (fieldNNN op))
  | 0x2#4 => some (.call (fieldNNN op))
  | 0x3#4 => some (.seImm (fieldX op) (fieldNN op))
  | 0x4#4 => some (.sneImm (fieldX op) (fieldNN op))
  | 0x5#4 => decodeFamily5 op
  | 0x6#4 => some (.ldImm (fieldX op) (fieldNN op))
  | 0x7#4 => some (.addImm (fieldX op) (fieldNN op))
  | 0x8#4 => decodeFamily8 op
  | 0x9#4 => decodeFamily9 op
  | 0xA#4 => some (.ldI (fieldNNN op))
  | 0xB#4 => some (.jpV0 (fieldNNN op))
  | 0xC#4 => some (.rnd (fieldX op) (fieldNN op))
  | 0xD#4 => some (.drw (fieldX op) (fieldY op) (fieldN op).toNat)
  | 0xE#4 => decodeFamilyE op
  | 0xF#4 => decodeFamilyF op
  | _ => none

/-! ## Bytes (20_memory R54, 30_encoding R70): two bytes, the high byte first -/

/-- Why a sequence of bytes is no instruction. -/
inductive DecodeError where
  /-- Fewer than the two bytes every instruction takes (R70). -/
  | tooShort
  /-- The word matches no row of the dispatch table (R78). -/
  | invalidInstruction (op : Word)
deriving DecidableEq, Repr

/-- op = M[pc] ‖ M[pc+1] (R54). -/
def joinBytes (hi lo : Byte) : Word := hi ++ lo

/-- The high and the low byte of a word, in memory order (R54). -/
def splitWord (op : Word) : List Byte := [op.extractLsb' 8 8, op.extractLsb' 0 8]

/-- The instruction at the head of a sequence of bytes, and the bytes after it. -/
def decode (bytes : List Byte) : Except DecodeError (Instr × List Byte) :=
  match bytes with
  | hi :: lo :: rest =>
    match decodeWord (joinBytes hi lo) with
    | some i => .ok (i, rest)
    | none => .error (.invalidInstruction (joinBytes hi lo))
  | _ => .error .tooShort

/-! ## The encoder (R72, R76) -/

/-- The 4 bits of a register number. -/
def regBits (r : Reg) : BitVec 4 := BitVec.ofNat 4 r.val

/-- Formats R and D: four nibbles `F X Y N`. -/
def wordXYN (f x y n : BitVec 4) : Word := f ++ x ++ y ++ n
/-- Formats I and S: `F X NN`. -/
def wordXNN (f x : BitVec 4) (nn : Byte) : Word := f ++ x ++ nn
/-- Formats E and A: `F NNN`. -/
def wordNNN (f : BitVec 4) (nnn : BitVec 12) : Word := f ++ nnn

/-- The word of a well-formed instruction (R76). A count outside its field is truncated: such a term is not well-formed. -/
def encode (i : Instr) : Word :=
  match i with
  | .cls          => wordNNN 0x0 0x0E0
  | .ret          => wordNNN 0x0 0x0EE
  | .jp nnn       => wordNNN 0x1 nnn
  | .call nnn     => wordNNN 0x2 nnn
  | .seImm x nn   => wordXNN 0x3 (regBits x) nn
  | .sneImm x nn  => wordXNN 0x4 (regBits x) nn
  | .seReg x y    => wordXYN 0x5 (regBits x) (regBits y) 0x0
  | .ldImm x nn   => wordXNN 0x6 (regBits x) nn
  | .addImm x nn  => wordXNN 0x7 (regBits x) nn
  | .ldReg x y    => wordXYN 0x8 (regBits x) (regBits y) 0x0
  | .or x y       => wordXYN 0x8 (regBits x) (regBits y) 0x1
  | .and x y      => wordXYN 0x8 (regBits x) (regBits y) 0x2
  | .xor x y      => wordXYN 0x8 (regBits x) (regBits y) 0x3
  | .addReg x y   => wordXYN 0x8 (regBits x) (regBits y) 0x4
  | .sub x y      => wordXYN 0x8 (regBits x) (regBits y) 0x5
  | .shr x y      => wordXYN 0x8 (regBits x) (regBits y) 0x6
  | .subn x y     => wordXYN 0x8 (regBits x) (regBits y) 0x7
  | .shl x y      => wordXYN 0x8 (regBits x) (regBits y) 0xE
  | .sneReg x y   => wordXYN 0x9 (regBits x) (regBits y) 0x0
  | .ldI nnn      => wordNNN 0xA nnn
  | .jpV0 nnn     => wordNNN 0xB nnn
  | .rnd x nn     => wordXNN 0xC (regBits x) nn
  | .drw x y rows => wordXYN 0xD (regBits x) (regBits y) (BitVec.ofNat 4 rows)
  | .skp x        => wordXNN 0xE (regBits x) 0x9E
  | .sknp x       => wordXNN 0xE (regBits x) 0xA1
  | .ldVxDt x     => wordXNN 0xF (regBits x) 0x07
  | .ldVxK x      => wordXNN 0xF (regBits x) 0x0A
  | .ldDtVx x     => wordXNN 0xF (regBits x) 0x15
  | .ldStVx x     => wordXNN 0xF (regBits x) 0x18
  | .addI x       => wordXNN 0xF (regBits x) 0x1E
  | .ldF x        => wordXNN 0xF (regBits x) 0x29
  | .ldB x        => wordXNN 0xF (regBits x) 0x33
  | .stRegs last  => wordXNN 0xF (BitVec.ofNat 4 last) 0x55
  | .ldRegs last  => wordXNN 0xF (BitVec.ofNat 4 last) 0x65

/-- The two bytes of an instruction in memory order. -/
def encodeBytes (i : Instr) : List Byte := splitWord (encode i)

/-! ## The opcode map as masks (R76): data beside the decoder, for statements about it -/

/-- One row of R76: a word selects it when `op AND mask = pattern`. -/
structure OpRow where
  pattern : Word
  mask    : Word
deriving DecidableEq, Repr

/-- The row selects the word. -/
abbrev OpRow.selects (r : OpRow) (op : Word) : Prop := op &&& r.mask = r.pattern

/-- The 34 rows of R76, in its order. -/
def opcodeMap : List OpRow :=
  [⟨0x00E0, 0xFFFF⟩, ⟨0x00EE, 0xFFFF⟩, ⟨0x1000, 0xF000⟩, ⟨0x2000, 0xF000⟩] ++
  [⟨0x3000, 0xF000⟩, ⟨0x4000, 0xF000⟩, ⟨0x5000, 0xF00F⟩, ⟨0x6000, 0xF000⟩] ++
  [⟨0x7000, 0xF000⟩, ⟨0x8000, 0xF00F⟩, ⟨0x8001, 0xF00F⟩, ⟨0x8002, 0xF00F⟩] ++
  [⟨0x8003, 0xF00F⟩, ⟨0x8004, 0xF00F⟩, ⟨0x8005, 0xF00F⟩, ⟨0x8006, 0xF00F⟩] ++
  [⟨0x8007, 0xF00F⟩, ⟨0x800E, 0xF00F⟩, ⟨0x9000, 0xF00F⟩, ⟨0xA000, 0xF000⟩] ++
  [⟨0xB000, 0xF000⟩, ⟨0xC000, 0xF000⟩, ⟨0xD000, 0xF000⟩, ⟨0xE09E, 0xF0FF⟩] ++
  [⟨0xE0A1, 0xF0FF⟩, ⟨0xF007, 0xF0FF⟩, ⟨0xF00A, 0xF0FF⟩, ⟨0xF015, 0xF0FF⟩] ++
  [⟨0xF018, 0xF0FF⟩, ⟨0xF01E, 0xF0FF⟩, ⟨0xF029, 0xF0FF⟩, ⟨0xF033, 0xF0FF⟩] ++
  [⟨0xF055, 0xF0FF⟩, ⟨0xF065, 0xF0FF⟩]

/-- The row of R76 that stands for an instruction. -/
def Instr.opRow (i : Instr) : OpRow :=
  match i with
  | .cls        => ⟨0x00E0, 0xFFFF⟩
  | .ret        => ⟨0x00EE, 0xFFFF⟩
  | .jp _       => ⟨0x1000, 0xF000⟩
  | .call _     => ⟨0x2000, 0xF000⟩
  | .seImm _ _  => ⟨0x3000, 0xF000⟩
  | .sneImm _ _ => ⟨0x4000, 0xF000⟩
  | .seReg _ _  => ⟨0x5000, 0xF00F⟩
  | .ldImm _ _  => ⟨0x6000, 0xF000⟩
  | .addImm _ _ => ⟨0x7000, 0xF000⟩
  | .ldReg _ _  => ⟨0x8000, 0xF00F⟩
  | .or _ _     => ⟨0x8001, 0xF00F⟩
  | .and _ _    => ⟨0x8002, 0xF00F⟩
  | .xor _ _    => ⟨0x8003, 0xF00F⟩
  | .addReg _ _ => ⟨0x8004, 0xF00F⟩
  | .sub _ _    => ⟨0x8005, 0xF00F⟩
  | .shr _ _    => ⟨0x8006, 0xF00F⟩
  | .subn _ _   => ⟨0x8007, 0xF00F⟩
  | .shl _ _    => ⟨0x800E, 0xF00F⟩
  | .sneReg _ _ => ⟨0x9000, 0xF00F⟩
  | .ldI _      => ⟨0xA000, 0xF000⟩
  | .jpV0 _     => ⟨0xB000, 0xF000⟩
  | .rnd _ _    => ⟨0xC000, 0xF000⟩
  | .drw _ _ _  => ⟨0xD000, 0xF000⟩
  | .skp _      => ⟨0xE09E, 0xF0FF⟩
  | .sknp _     => ⟨0xE0A1, 0xF0FF⟩
  | .ldVxDt _   => ⟨0xF007, 0xF0FF⟩
  | .ldVxK _    => ⟨0xF00A, 0xF0FF⟩
  | .ldDtVx _   => ⟨0xF015, 0xF0FF⟩
  | .ldStVx _   => ⟨0xF018, 0xF0FF⟩
  | .addI _     => ⟨0xF01E, 0xF0FF⟩
  | .ldF _      => ⟨0xF029, 0xF0FF⟩
  | .ldB _      => ⟨0xF033, 0xF0FF⟩
  | .stRegs _   => ⟨0xF055, 0xF0FF⟩
  | .ldRegs _   => ⟨0xF065, 0xF0FF⟩

/-! ## The host's word of the opcode table -/

/-- The two bytes, in memory order, of the instruction whose `nbits` bits are `w`, bit 0 the least significant bit of its one 16-bit word; bits above `nbits` are 0. -/
def tableBytes (nbits w : Nat) : List Byte := splitWord (BitVec.ofNat 16 (w % 2 ^ nbits))

/-- What the decoder reads from that instruction's bytes. -/
def decodeTableWord (nbits w : Nat) : Option Instr :=
  match decode (tableBytes nbits w) with
  | .ok (i, _) => some i
  | .error _ => none

end Sys2Proof
end

