-- ==== Sys2Proof/Config.lean ====
section
/-! DEFINITION. What is fixed for the machine (00_scope R6): its sizes, the types of its two open parameters FONT and SUB_FLAG, the type of a key snapshot, and the free inputs. The parameters' default VALUES are in Machine/Params.lean. -/

namespace Sys2Proof

namespace Config

/-- `MEM_SIZE`: valid byte addresses are 0x000 to 0xFFF (R6, R50). -/
abbrev memSize : Nat := 0x1000
/-- `FONT_BASE` (R6, R51). -/
abbrev fontBase : Nat := 0x050
/-- `FONT_LEN`: 16 glyphs of 5 bytes (R6, R52). -/
abbrev fontLen : Nat := 80
/-- `GLYPH_BYTES` (R6). -/
abbrev glyphBytes : Nat := 5
/-- `PROG_BASE`: load address and reset value of pc (R6). -/
abbrev progBase : Nat := 0x200
/-- `MAX_PROG` = 4096 - 512: the largest program RESET accepts (R6, R230). -/
abbrev maxProg : Nat := 3584
/-- `DISP_W` (R6, R32). -/
abbrev dispW : Nat := 64
/-- `DISP_H` (R6, R32). -/
abbrev dispH : Nat := 32

end Config

/-- A key snapshot: "an externally supplied array of 16 booleans", `keys[k]` true when key k is pressed (10_state R36). -/
abbrev Keypad := Vector Bool 16

/-- A glyph: five sprite rows, bit 7 the leftmost pixel (20_memory R52). -/
abbrev Glyph := Vector Byte 5

/-- The parameter `FONT`: 16 glyphs in the order 0 to F (20_memory R52, R53). -/
abbrev Font := Vector Glyph 16

/-- The parameter `SUB_FLAG`: the polarity of VF after 8XY5 and 8XY7 (00_scope R6, 92 D5). -/
inductive SubFlag where
  /-- VF is 1 when the subtraction needed no borrow: the default. -/
  | notBorrow
  /-- VF is 1 when the subtraction borrowed. -/
  | borrow
deriving DecidableEq, Repr

/-- The two parameters the spec leaves open and says a model takes as arguments (00_scope R6, 92 "Open parameters"). -/
structure Params where
  font    : Font
  subFlag : SubFlag
deriving DecidableEq, Repr

/-- The n-th free random byte: "a free byte supplied with each STEP", under no law (10_state R37, 92 D11). No body: nothing can be proved of its value (log 3). -/
opaque Config.freeByte : Nat → Byte

/-- The n-th free key snapshot: the caller may present any snapshot to any STEP (10_state R36, 93 U10). No body: nothing can be proved of its value (log 3). -/
opaque Config.freeKeys : Nat → Keypad

end Sys2Proof
end

