-- ==== Sys2Proof/Machine/Params.lean ====
section
/-! DEFINITION. The default values of the two open parameters (00_scope R6): they stand here, and State.reset takes them from here. The spec marks both as general knowledge (93 G2, G5): PRESUMED, log 6 and log 7. No statement about a state rests on them unless it is about State.reset. -/

namespace Sys2Proof.Machine

/-- The default `FONT` of 20_memory R53 (PRESUMED, log 6), glyphs 0 to F. -/
def defaultFont : Font :=
  #v[#v[0xF0, 0x90, 0x90, 0x90, 0xF0], #v[0x20, 0x60, 0x20, 0x20, 0x70],
     #v[0xF0, 0x10, 0xF0, 0x80, 0xF0], #v[0xF0, 0x10, 0xF0, 0x10, 0xF0],
     #v[0x90, 0x90, 0xF0, 0x10, 0x10], #v[0xF0, 0x80, 0xF0, 0x10, 0xF0],
     #v[0xF0, 0x80, 0xF0, 0x90, 0xF0], #v[0xF0, 0x10, 0x20, 0x40, 0x40],
     #v[0xF0, 0x90, 0xF0, 0x90, 0xF0], #v[0xF0, 0x90, 0xF0, 0x10, 0xF0],
     #v[0xF0, 0x90, 0xF0, 0x90, 0x90], #v[0xE0, 0x90, 0xE0, 0x90, 0xE0],
     #v[0xF0, 0x80, 0x80, 0x80, 0xF0], #v[0xE0, 0x90, 0x90, 0x90, 0xE0],
     #v[0xF0, 0x80, 0xF0, 0x80, 0xF0], #v[0xF0, 0x80, 0xF0, 0x80, 0x80]]

/-- The parameters of the machine as the spec gives their defaults: FONT of R53 (log 6) and SUB_FLAG = not_borrow (00_scope R6, 92 D5; log 7). -/
def defaultParams : Params := { font := defaultFont, subFlag := .notBorrow }

end Sys2Proof.Machine
end

