-- ==== Sys2Proof/Machine/State.lean ====
section
/-! DEFINITION. The state of the core as plain data (10_state R20 to R35), with the inputs of the STEP in progress, the results the operations return, the caller's queued operations and the machine's parameters. -/

namespace Sys2Proof.Machine

/-- The register file x[0] .. x[15] (R20). -/
abbrev Regs := Vector Byte 16

/-- The display, `fb[y][x]`, row 0 at the top and column 0 at the left (R32). -/
abbrev Display := Vector (Vector Bool 64) 32

/-- Memory as (address, byte) pairs in one canonical form (`Memory.wf`, Machine/Ops.lean). -/
abbrev Memory := List Host.Cell

/-- The runtime-fatal conditions, with the value the latch records (60 R200). -/
inductive Fatal where
  /-- The word fetched matches no row of the dispatch table (R201). -/
  | invalidInstruction (op : Word)
  /-- 00EE with an empty call stack (R202). -/
  | emptyStackReturn
  /-- FX29 with a register value above 15 (R203). -/
  | fontIndexOutOfRange (v : Byte)
  /-- A fetch or data access above 0xFFF; `a` is the lowest such byte address it would touch, an unbounded integer (R204, 20 R57). -/
  | addressOutOfRange (a : Nat)
deriving DecidableEq, Repr

/-- The load-time rejection RESET reports; it does not set the latch (60 R207). -/
inductive LoadError where
  /-- The program is longer than 3584 bytes; the offered length. -/
  | programTooLarge (len : Nat)
deriving DecidableEq, Repr

/-- The three operations the caller can issue (00_scope R4, R10). -/
inductive CallerOp where
  /-- STEP(keys, rnd): execute one instruction (30 R73). -/
  | step (keys : Keypad) (rnd : Byte)
  /-- TICK(): advance the timers by one tick (44 R187). -/
  | tick
  /-- RESET(program) (70 R230). -/
  | reset (program : List Byte)
deriving DecidableEq, Repr

/-- The reasons for which the model stops with a fault: NONE. Every fatal condition of 60 R200 has an entry the spec describes (R205, R206), so it is taken as a next state (log 1). -/
inductive Fault
deriving DecidableEq, Repr

/-- The reasons for which the model has no meaning for an instruction. -/
inductive Refusal where
  /-- Raised by `exec`'s arm of an instruction that has no meaning yet; no arm raises it now. Safe: nothing can be proved of a run past it. -/
  | notModelled (mnemonic : String)
deriving DecidableEq, Repr

/-- The whole state. The first nine fields are the state the spec gives the core (10_state section 1). -/
structure State where
  /-- General registers x[0] .. x[15]; register 15 is also the flag VF (R20, R21). -/
  v : Regs
  /-- Program counter (R23 to R26). -/
  pc : Word
  /-- Index register `I` (R27). -/
  idx : Word
  /-- Call stack of return addresses, the top FIRST (R28). -/
  stack : List Word
  /-- Delay timer `DT` (R29). -/
  dt : Byte
  /-- Sound timer `ST` (R30). -/
  st : Byte
  /-- Memory `M` (R31, 20_memory R50). -/
  mem : Memory
  /-- Display `fb` (R32). -/
  fb : Display
  /-- Fault latch (R35). -/
  fault : Option Fatal
  /-- Result: the boolean the last STEP returned, "display updated" (R40; log 5). -/
  updated : Bool
  /-- Result: what the last RESET reported; `none` is ok (60 R207, 70 R231; log 5). -/
  loadError : Option LoadError
  /-- Input: the key snapshot of the STEP in progress (R36; log 4). -/
  keys : Keypad
  /-- Input: the byte drawn for the STEP in progress (R37; log 4). -/
  rnd : Byte
  /-- The operations the caller has queued, oldest first (log 2). -/
  pending : List CallerOp
  /-- The MODEL's own counter of free inputs taken (log 3). -/
  draws : Nat
  /-- The parameters FONT and SUB_FLAG (00_scope R6; log 6, log 7). -/
  params : Params
deriving DecidableEq, Repr

/-- The state right after a successful RESET of the empty program (10_state R41, 70 R230): memory lists nothing, so that every byte reads as its reset content. The values of the result, input and model's own fields are DESIGN CHOICES (log 2 to log 5), those of the parameters PRESUMED (log 6, log 7). -/
def State.reset : State where
  v := Vector.replicate 16 0
  pc := 0x0200
  idx := 0
  stack := []
  dt := 0
  st := 0
  mem := []
  fb := Vector.replicate 32 (Vector.replicate 64 false)
  fault := none
  updated := false
  loadError := none
  keys := Vector.replicate 16 false
  rnd := 0
  pending := []
  draws := 0
  params := defaultParams

end Sys2Proof.Machine
end

