-- ==== Sys2Proof/Machine/Ops.lean ====
section
/-! DEFINITION. The named operations over registers, stack, memory, display and fault latch (00_scope R8), and the operations TICK and RESET. -/

namespace Sys2Proof.Machine

/-- What a meaning answers. -/
abbrev Result := Host.Outcome State Fault Refusal

/-! ## Memory (20_memory) -/

/-- Byte `j` of the font table, glyph by glyph (R51, R52). -/
def fontByte (f : Font) (j : Nat) : Byte :=
  if h : j < 80 then (f[j / 5]'(by omega))[j % 5]'(Nat.mod_lt _ (by decide)) else 0

/-- What an address that memory does not list reads as: its content after RESET of the empty program, the font at 0x050 to 0x09F and zero everywhere else (R51). -/
def Memory.unlisted (f : Font) (a : Nat) : Byte :=
  if 0x050 ≤ a ∧ a ≤ 0x09F then fontByte f (a - 0x050) else 0

/-- The byte memory lists at an address, if any. -/
def Memory.lookup : Memory → Nat → Option Byte
  | [], _ => none
  | (k, b) :: m, a => if k = a then some b else Memory.lookup m a

/-- `MemRead(a, 1)` on an address known to be in range. -/
def Memory.read (f : Font) (m : Memory) (a : Nat) : Byte :=
  (Memory.lookup m a).getD (Memory.unlisted f a)

/-- Lists a byte at its place in the rising order of addresses. -/
def Memory.put : Memory → Nat → Byte → Memory
  | [], a, b => [(a, b)]
  | (k, c) :: m, a, b =>
    if a < k then (a, b) :: (k, c) :: m
    else if a = k then (a, b) :: m
    else (k, c) :: Memory.put m a b

/-- Takes an address out of the list. -/
def Memory.drop : Memory → Nat → Memory
  | [], _ => []
  | (k, c) :: m, a => if k = a then m else (k, c) :: Memory.drop m a

/-- `MemWrite(a, 1, b)` on an address known to be in range. Writing what the unlisted address reads as removes the entry. -/
def Memory.write (f : Font) (m : Memory) (a : Nat) (b : Byte) : Memory :=
  if b = Memory.unlisted f a then Memory.drop m a else Memory.put m a b

/-- The bytes at `a`, `a + 1`, ... . -/
def Memory.readBytes (f : Font) (m : Memory) : Nat → Nat → List Byte
  | _, 0 => []
  | a, n + 1 => Memory.read f m a :: Memory.readBytes f m (a + 1) n

/-- Stores bytes at `a`, `a + 1`, ... in ascending order (R55). -/
def Memory.writeBytes (f : Font) : Memory → Nat → List Byte → Memory
  | m, _, [] => m
  | m, a, b :: bs => Memory.writeBytes f (Memory.write f m a b) (a + 1) bs

/-- The canonical form: addresses strictly rising and inside memory, no entry equal to what the unlisted address reads as. -/
abbrev Memory.wf (f : Font) (m : Memory) : Prop :=
  m.Pairwise (fun c d => c.1 < d.1) ∧ ∀ c ∈ m, c.1 ≤ 0xFFF ∧ c.2 ≠ Memory.unlisted f c.1

/-- The memory that lists a program's bytes from address `a` on and nothing else (70 R230). -/
def Memory.image (f : Font) : Nat → List Byte → Memory
  | _, [] => []
  | a, b :: bs =>
    if b = Memory.unlisted f a then Memory.image f (a + 1) bs else (a, b) :: Memory.image f (a + 1) bs

/-- The byte at an address of the machine's memory. -/
def State.readByte (s : State) (a : Nat) : Byte := Memory.read s.params.font s.mem a

/-- The `n` bytes from an address on. -/
def State.readBytes (s : State) (a n : Nat) : List Byte := Memory.readBytes s.params.font s.mem a n

/-- The state with bytes stored from an address on. -/
def State.storeBytes (s : State) (a : Nat) (bs : List Byte) : State :=
  { s with mem := Memory.writeBytes s.params.font s.mem a bs }

/-- The range check made before any effect: for an access of `n` bytes from `base` on, the lowest byte address above 0xFFF it would touch, if any, that is `max(base, 0x1000)`. Sums are unbounded integers; an access of no byte is in range (20_memory R57, 42 R156, R157). -/
def outOfRange (base n : Nat) : Option Nat :=
  if n = 0 ∨ base + n ≤ Config.memSize then none else some (max base 0x1000)

/-! ## Registers, pc, stack (10_state) -/

/-- `x[r]`. -/
def State.getV (s : State) (r : Reg) : Byte := s.v[r]

/-- `x[r] <- b`. -/
def State.setV (s : State) (r : Reg) (b : Byte) : State := { s with v := s.v.set r b }

/-- `x[k] <- b` for the bytes of a list, from register `k` on; a number past 15 names no register. -/
def Regs.load : Regs → Nat → List Byte → Regs
  | v, _, [] => v
  | v, k, b :: bs => Regs.load (v.setIfInBounds k b) (k + 1) bs

/-- `pc <- target`. -/
def State.jump (s : State) (target : Word) : State := { s with pc := target }

/-- `pc <- (pc + 2) mod 2^16`: the advance of every STEP and the skip of a taken skip (R24, R25). -/
def State.advance (s : State) : State := { s with pc := s.pc + 2 }

/-- `pc <- (pc - 2) mod 2^16` (R24, 44 R184). -/
def State.retreat (s : State) : State := { s with pc := s.pc - 2 }

/-- `if c: pc <- (pc + 2) mod 2^16` (40 R104 to R107, 44 R180, R181). -/
def State.skipIf (s : State) (c : Bool) : State := if c then s.advance else s

/-- `push(a)`: the stack is unbounded, so a push never fails (R28). -/
def State.push (s : State) (a : Word) : State := { s with stack := a :: s.stack }

/-! ## Display (10_state R32, 43 R171) -/

/-- The pixel at row `y`, column `x`; off outside the 32 x 64 grid. -/
def Display.pixel (d : Display) (y x : Nat) : Bool :=
  if h : y < 32 ∧ x < 64 then (d[y]'h.1)[x]'h.2 else false

/-- The display with one pixel set; unchanged for a position outside the grid. -/
def Display.setPixel (d : Display) (y x : Nat) (on : Bool) : Display :=
  if h : y < 32 then d.set y ((d[y]'h).setIfInBounds x on) else d

/-- All 2048 pixels off. -/
def Display.blank : Display := Vector.replicate 32 (Vector.replicate 64 false)

/-! ## Taking a fatal condition (60 R205, R206) -/

/-- `raise k`, seen from inside an instruction, where the pc is already advanced: the pc is again the address of the offending instruction, nothing else of the core has changed, the latch holds `k` and STEP returns `updated` = false (R205). There is no return from a fatal condition (R210): only RESET clears the latch. -/
def State.raise (s : State) (k : Fatal) : State :=
  { s with pc := s.pc - 2, fault := some k, updated := false }

/-- The numeric code of the latch (60 R200). -/
def Fatal.code : Option Fatal → Nat
  | none => 0
  | some (.invalidInstruction _) => 2
  | some .emptyStackReturn => 3
  | some (.fontIndexOutOfRange _) => 4
  | some (.addressOutOfRange _) => 5

/-- The numeric code of the load-time rejection (60 R200). -/
def LoadError.code : LoadError → Nat
  | .programTooLarge _ => 1

/-! ## Outputs (10_state R38, R39, R40) -/

/-- The output `framebuffer` (R38). -/
def State.framebuffer (s : State) : Display := s.fb

/-- The output `sound_active` = (ST != 0) (R39). -/
def State.soundActive (s : State) : Bool := s.st != 0

/-- What STEP returned: `updated`, and the fatal condition if any (R40, R206). -/
def State.stepResult (s : State) : Bool × Option Fatal := (s.updated, s.fault)

/-! ## TICK (44 R187) -/

/-- One timer, one tick: minus 1 while nonzero. -/
def tickDown (t : Byte) : Byte := if t = 0 then 0 else t - 1

/-- TICK(): both timers, unless the latch is set (R187, R206). -/
def State.tick (s : State) : State :=
  if s.fault = none then { s with dt := tickDown s.dt, st := tickDown s.st } else s

/-! ## RESET (70 R230 to R232) -/

/-- RESET(program) on a core that holds no state yet: a fresh state, or the rejection and still no state (R230, R231, 92 D18, D20). -/
def State.boot (p : Params) (program : List Byte) : Except LoadError State :=
  if program.length > Config.maxProg then .error (.programTooLarge program.length)
  else .ok { State.reset with params := p, mem := Memory.image p.font Config.progBase program }

/-- RESET(program) on a core that holds a state: the fresh state, or the same state, the latch included, with the rejection reported (R230 to R232). The caller's queue, the counter of free inputs and the parameters are not the core's and stay. -/
def State.load (s : State) (program : List Byte) : State :=
  match State.boot s.params program with
  | .ok t => { t with pending := s.pending, draws := s.draws }
  | .error e => { s with loadError := some e }

end Sys2Proof.Machine
end

