-- ==== Sys2Proof/Machine/Flags.lean ====
section
/-! DEFINITION. Every flag the instructions write to x[15] (10_state R21, R22). -/

namespace Sys2Proof.Machine

/-- A flag is 0 or 1 (R21). -/
def flagByte (b : Bool) : Byte := if b then 1 else 0

/-- `x[15] <- flag`, always the last write of an instruction (R22). -/
def State.setFlag (s : State) (b : Bool) : State := s.setV regF (flagByte b)

/-- The 9-bit sum of 8XY4 (41 R128). -/
def sum9 (a b : Byte) : BitVec 9 := a.zeroExtend 9 + b.zeroExtend 9

/-- Carry of 8XY4: bit 8 of the 9-bit sum (41 R128). -/
def carryOut (a b : Byte) : Bool := (sum9 a b).getLsbD 8

/-- The flag of `a - b` under a polarity: 1 when `a >= b`, or inverted (41 R129, R131, 92 D5). -/
def subtractFlag (p : SubFlag) (a b : Byte) : Bool :=
  match p with
  | .notBorrow => decide (b.toNat ≤ a.toNat)
  | .borrow => decide (a.toNat < b.toNat)

/-- The bit 8XY6 shifts out: bit 0 (41 R130). -/
def lowBit (a : Byte) : Bool := a.getLsbD 0

/-- The bit 8XYE shifts out: bit 7 and only bit 7 (41 R132, R133). -/
def highBit (a : Byte) : Bool := a.getLsbD 7

/-- The 17-bit sum of FX1E (42 R151). -/
def sum17 (i : Word) (b : Byte) : BitVec 17 := i.zeroExtend 17 + b.zeroExtend 17

/-- Overflow of FX1E: bit 16 of the 17-bit sum (42 R151). -/
def indexOverflow (i : Word) (b : Byte) : Bool := (sum17 i b).getLsbD 16

end Sys2Proof.Machine
end

