-- ==== Sys2Proof/Machine/Alu.lean ====
section
/-! DEFINITION. Register and ALU instructions (41_alu R120 to R135). Each meaning acts on the state whose pc is already advanced (30 R73). -/

namespace Sys2Proof.Machine

/-- The result to x[X], then the flag to x[15]: the order of R127. -/
def State.setResult (s : State) (x : Reg) (result : Byte) (flag : Bool) : State :=
  (s.setV x result).setFlag flag

/-- 6XNN (R120). -/
def execLdImm (x : Reg) (nn : Byte) (s : State) : Result := .next (s.setV x nn)

/-- 7XNN: the carry is discarded, no flag (R121). -/
def execAddImm (x : Reg) (nn : Byte) (s : State) : Result := .next (s.setV x (s.getV x + nn))

/-- 8XY0 (R122). -/
def execLdReg (x y : Reg) (s : State) : Result := .next (s.setV x (s.getV y))

/-- 8XY1: no flag (R123, 92 D17). -/
def execOr (x y : Reg) (s : State) : Result := .next (s.setV x (s.getV x ||| s.getV y))

/-- 8XY2: no flag (R124, 92 D17). -/
def execAnd (x y : Reg) (s : State) : Result := .next (s.setV x (s.getV x &&& s.getV y))

/-- 8XY3: no flag (R125, 92 D17). -/
def execXor (x y : Reg) (s : State) : Result := .next (s.setV x (s.getV x ^^^ s.getV y))

/-- 8XY4 (R128). -/
def execAddReg (x y : Reg) (s : State) : Result :=
  .next (s.setResult x ((sum9 (s.getV x) (s.getV y)).extractLsb' 0 8) (carryOut (s.getV x) (s.getV y)))

/-- 8XY5 (R129), the polarity the parameter SUB_FLAG. -/
def execSub (x y : Reg) (s : State) : Result :=
  .next (s.setResult x (s.getV x - s.getV y) (subtractFlag s.params.subFlag (s.getV x) (s.getV y)))

/-- 8XY7: the operands swapped, the destination still x[X] (R131). -/
def execSubn (x y : Reg) (s : State) : Result :=
  .next (s.setResult x (s.getV y - s.getV x) (subtractFlag s.params.subFlag (s.getV y) (s.getV x)))

/-- 8XY6: x[X] in place, Y ignored (R130, 30 R77). -/
def execShr (x _y : Reg) (s : State) : Result :=
  .next (s.setResult x (s.getV x >>> 1) (lowBit (s.getV x)))

/-- 8XYE: x[X] in place, Y ignored (R132, R133, 30 R77). -/
def execShl (x _y : Reg) (s : State) : Result :=
  .next (s.setResult x (s.getV x <<< 1) (highBit (s.getV x)))

/-- CXNN: the byte drawn for this STEP, masked (R134). -/
def execRnd (x : Reg) (nn : Byte) (s : State) : Result := .next (s.setV x (s.rnd &&& nn))

end Sys2Proof.Machine
end

