-- ==== Sys2Proof/Machine/Operands.lean ====
section
/-! DEFINITION. Operand forms: immediates, the effective address, key lookup, the instruction word at the pc (30 R75, 42 R156, 44 R183, 20 R54). -/

namespace Sys2Proof.Machine

/-- `zext_16(NNN)` (30 R75). -/
def zextNNN (nnn : BitVec 12) : Word := nnn.zeroExtend 16

/-- `zext_16` of a byte. -/
def zextByte (b : Byte) : Word := b.zeroExtend 16

/-- The base of every data access, `I`, as an unbounded integer (42 R156). -/
def State.dataBase (s : State) : Nat := s.idx.toNat

/-- `pressed(v) = (v <= 15) and keys[v]`: a value above 15 is no key (44 R183). -/
def pressed (keys : Keypad) (v : Byte) : Bool :=
  if h : v.toNat < 16 then keys[v.toNat] else false

/-- The least key pressed in a snapshot, if any (44 R184). -/
def lowestPressed (keys : Keypad) : Option Nat := keys.toList.findIdx? id

/-- The word at an address, high byte first (20 R54, 30 R70). -/
def State.wordAt (s : State) (a : Nat) : Word := joinBytes (s.readByte a) (s.readByte (a + 1))

/-- The instruction fetch at the pc: the word, or the lowest byte address above 0xFFF that it would touch (30 R73, 20 R57). -/
def State.fetch (s : State) : Except Nat Word :=
  match outOfRange s.pc.toNat 2 with
  | some a => .error a
  | none => .ok (s.wordAt s.pc.toNat)

end Sys2Proof.Machine
end

