-- ==== Sys2Proof/Machine/Flow.lean ====
section
/-! DEFINITION. Control transfer (40_flow R100 to R108). The pc is already the address of the next sequential instruction (30 R73). -/

namespace Sys2Proof.Machine

/-- 00EE: pop into the pc; fatal on an empty stack (R100). -/
def execRet (s : State) : Result :=
  match s.stack with
  | [] => .next (s.raise .emptyStackReturn)
  | a :: rest => .next ({ s with stack := rest }.jump a)

/-- 1NNN (R101). -/
def execJp (nnn : BitVec 12) (s : State) : Result :=
  .next (s.jump (zextNNN nnn))

/-- 2NNN: the pushed address is the advanced pc (R102). -/
def execCall (nnn : BitVec 12) (s : State) : Result :=
  .next ((s.push s.pc).jump (zextNNN nnn))

/-- BNNN: always register 0, the sum not masked (R103). -/
def execJpV0 (nnn : BitVec 12) (s : State) : Result :=
  .next (s.jump (zextNNN nnn + zextByte (s.getV 0)))

/-- 3XNN (R104). -/
def execSeImm (x : Reg) (nn : Byte) (s : State) : Result :=
  .next (s.skipIf (s.getV x == nn))

/-- 4XNN (R105). -/
def execSneImm (x : Reg) (nn : Byte) (s : State) : Result :=
  .next (s.skipIf (s.getV x != nn))

/-- 5XY0 (R106). -/
def execSeReg (x y : Reg) (s : State) : Result :=
  .next (s.skipIf (s.getV x == s.getV y))

/-- 9XY0 (R107). -/
def execSneReg (x y : Reg) (s : State) : Result :=
  .next (s.skipIf (s.getV x != s.getV y))

end Sys2Proof.Machine
end

