-- ==== Sys2Proof/Machine/Index.lean ====
section
/-! DEFINITION. Index register and memory instructions (42_index_memory R150 to R157). None changes the pc beyond the common advance. -/

namespace Sys2Proof.Machine

/-- An instruction that touches the `n` bytes from `I` on: `AddressOutOfRange` and no effect where one of them is above 0xFFF, else its effect (R156, 20 R57). -/
def State.accessing (s : State) (n : Nat) (effect : State) : Result :=
  match outOfRange s.dataBase n with
  | some a => .next (s.raise (.addressOutOfRange a))
  | none => .next effect

/-- The decimal digits of a byte, hundreds first, each in its own byte (R153). -/
def decimalDigits (b : Byte) : List Byte :=
  [BitVec.ofNat 8 (b.toNat / 100), BitVec.ofNat 8 (b.toNat / 10 % 10), BitVec.ofNat 8 (b.toNat % 10)]

/-- ANNN (R150). -/
def execLdI (nnn : BitVec 12) (s : State) : Result :=
  .next { s with idx := zextNNN nnn }

/-- FX1E: 16-bit wraparound, the overflow out of 16 bits to x[15], last (R151). -/
def execAddI (x : Reg) (s : State) : Result :=
  .next ({ s with idx := (sum17 s.idx (s.getV x)).extractLsb' 0 16 }.setFlag (indexOverflow s.idx (s.getV x)))

/-- FX29: the value of the register, not masked, selects the glyph; above 15 it is fatal (R152). -/
def execLdF (x : Reg) (s : State) : Result :=
  if (s.getV x).toNat > 15 then .next (s.raise (.fontIndexOutOfRange (s.getV x)))
  else .next { s with idx := 0x050 + 5 * zextByte (s.getV x) }

/-- FX33 (R153). -/
def execLdB (x : Reg) (s : State) : Result :=
  s.accessing 3 (s.storeBytes s.dataBase (decimalDigits (s.getV x)))

/-- FX55: x[0] .. x[last], `I` unchanged (R154). -/
def execStRegs (last : Nat) (s : State) : Result :=
  s.accessing (last + 1) (s.storeBytes s.dataBase (s.v.toList.take (last + 1)))

/-- FX65: x[0] .. x[last], `I` unchanged (R155). -/
def execLdRegs (last : Nat) (s : State) : Result :=
  s.accessing (last + 1) { s with v := Regs.load s.v 0 (s.readBytes s.dataBase (last + 1)) }

end Sys2Proof.Machine
end

