-- ==== Sys2Proof/Machine/Screen.lean ====
section
/-! DEFINITION. Display instructions and the sprite-collision detector (43_display R170 to R175). -/

namespace Sys2Proof.Machine

/-- A drawing in progress: the display, and whether a pixel went from on to off so far. -/
structure Canvas where
  fb : Display
  hit : Bool
deriving DecidableEq, Repr

/-- One sprite bit that is 1, at a position inside the display: the pixel is inverted, and an on pixel that goes off is a collision (R172). -/
def Canvas.flip (c : Canvas) (y x : Nat) : Canvas :=
  { fb := Display.setPixel c.fb y x (!Display.pixel c.fb y x), hit := c.hit || Display.pixel c.fb y x }

/-- The bits of one sprite row from column `x` on; drawing stops once the column would reach 64 (R172). -/
def Canvas.drawBits (c : Canvas) (y x : Nat) : List Bool → Canvas
  | [] => c
  | bit :: bits =>
    if 64 ≤ x then c else Canvas.drawBits (if bit then c.flip y x else c) y (x + 1) bits

/-- The bits of a sprite row, the most significant first (R171). -/
def spriteBits (row : Byte) : List Bool :=
  [row.getLsbD 7, row.getLsbD 6, row.getLsbD 5, row.getLsbD 4, row.getLsbD 3, row.getLsbD 2, row.getLsbD 1, row.getLsbD 0]

/-- The sprite's rows, top to bottom, from row `y` on; drawing stops once the row would reach 32 (R172). -/
def Canvas.drawRows (c : Canvas) (y x : Nat) : List Byte → Canvas
  | [] => c
  | row :: rows =>
    if 32 ≤ y then c else Canvas.drawRows (c.drawBits y x (spriteBits row)) (y + 1) x rows

/-- 00E0 (R170). -/
def execCls (s : State) : Result :=
  .next { s with fb := Display.blank, updated := true }

/-- The drawing of DXYN: the sprite bytes and the coordinates are read before the flag is cleared (R172, 92 D14); the start position wraps, the pixels do not. -/
def State.drawSprite (s : State) (x y : Reg) (rows : Nat) : Canvas :=
  Canvas.drawRows { fb := s.fb, hit := false } ((s.getV y).toNat % 32) ((s.getV x).toNat % 64)
    (s.readBytes s.dataBase rows)

/-- DXYN (R172): `updated` unconditionally, x[15] the collision. -/
def execDrw (x y : Reg) (rows : Nat) (s : State) : Result :=
  s.accessing rows
    ({ s with fb := (s.drawSprite x y rows).fb, updated := true }.setFlag (s.drawSprite x y rows).hit)

end Sys2Proof.Machine
end

