-- ==== Sys2Proof/Machine/TimerKeypad.lean ====
section
/-! DEFINITION. Timer and keypad instructions (44_timer_keypad R180 to R186). The operation TICK is `State.tick` (Machine/Ops.lean). -/

namespace Sys2Proof.Machine

/-- EX9E (R180). -/
def execSkp (x : Reg) (s : State) : Result :=
  .next (s.skipIf (pressed s.keys (s.getV x)))

/-- EXA1 (R181). -/
def execSknp (x : Reg) (s : State) : Result :=
  .next (s.skipIf (!pressed s.keys (s.getV x)))

/-- FX07 (R182). -/
def execLdVxDt (x : Reg) (s : State) : Result :=
  .next (s.setV x s.dt)

/-- FX0A: the lowest pressed key, or the same instruction again at the next STEP (R184). -/
def execLdVxK (x : Reg) (s : State) : Result :=
  .next (match lowestPressed s.keys with
    | some k => s.setV x (BitVec.ofNat 8 k)
    | none => s.retreat)

/-- FX15 (R185). -/
def execLdDtVx (x : Reg) (s : State) : Result :=
  .next { s with dt := s.getV x }

/-- FX18 (R186). -/
def execLdStVx (x : Reg) (s : State) : Result :=
  .next { s with st := s.getV x }

end Sys2Proof.Machine
end

