-- ==== Sys2Proof/Machine/Cycle.lean ====
section
/-! DEFINITION. One operation of the caller: STEP (30_encoding R73), TICK, RESET, in the order the caller queued them (00_scope R10; log 2, log 3). -/

namespace Sys2Proof.Machine

/-- The state an instruction's own effect starts from: the inputs of this STEP sampled, `updated` false, the pc advanced by 2 (R73). -/
def State.begin (s : State) (keys : Keypad) (rnd : Byte) : State :=
  { s with keys := keys, rnd := rnd, updated := false }.advance

/-- The word of a STEP: decoded and run, or fatal as a whole (R73, R74, 60 R201). -/
def State.runWord (s : State) (op : Word) : Result :=
  match decodeWord op with
  | some i => exec i s
  | none => .next (s.raise (.invalidInstruction op))

/-- STEP(keys, rnd) (R73), the checks in the order of 60 R209: the latch, the fetch range, the decoding, the instruction's own. -/
def State.runStep (s : State) (keys : Keypad) (rnd : Byte) : Result :=
  if s.fault = none then
    match s.fetch with
    | .ok op => (s.begin keys rnd).runWord op
    | .error a => .next ((s.begin keys rnd).raise (.addressOutOfRange a))
  else .next { s with updated := false }

/-- The oldest operation of the caller's queue; with an empty queue a STEP whose inputs are free (log 2, log 3). -/
def State.cycle (s : State) : Result :=
  match s.pending with
  | .step keys rnd :: rest => { s with pending := rest }.runStep keys rnd
  | .tick :: rest => .next { s with pending := rest }.tick
  | .reset program :: rest => .next ({ s with pending := rest }.load program)
  | [] => { s with draws := s.draws + 1 }.runStep (Config.freeKeys s.draws) (Config.freeByte s.draws)

/-- The queue from its first STEP on. -/
def fromFirstStep : List CallerOp → List CallerOp
  | .step keys rnd :: rest => .step keys rnd :: rest
  | .tick :: rest => fromFirstStep rest
  | .reset _ :: rest => fromFirstStep rest
  | [] => []

/-- Puts an instruction's bytes where the next STEP fetches them, and takes out of the way what would keep the next step from fetching them: a set latch, and a TICK or RESET queued before the next STEP (log 11). Where the pc admits no fetch no byte is placed. -/
def State.placeInstruction (s : State) (bytes : List Byte) : State :=
  match outOfRange s.pc.toNat bytes.length with
  | some _ => { s with fault := none, pending := fromFirstStep s.pending }
  | none => { s.storeBytes s.pc.toNat bytes with fault := none, pending := fromFirstStep s.pending }

end Sys2Proof.Machine
end

