-- ==== Sys2Proof/Safety.lean ====
section
/-! DEFINITION. The terms claims are stated in: the pieces of the state and what leaves them unchanged, the state of the core, the invariant, a safe state, the idle end of a run, the sprite as a set of positions. -/

namespace Sys2Proof.Machine

/-- The pieces of the state of the core (10_state section 1), and the fields that are not the core's taken together. -/
inductive Piece where
  | v | pc | idx | stack | dt | st | mem | fb | fault
  /-- The result `updated` (R40). -/
  | updated
  /-- The other result, the inputs, the caller's queue, the model's counter and the parameters. -/
  | rest
deriving DecidableEq, Repr

/-- A piece is the same in two states. Memory is compared through the read of every byte. -/
def Piece.same (p : Piece) (s t : State) : Prop :=
  match p with
  | .v => ∀ r : Reg, t.getV r = s.getV r
  | .pc => t.pc = s.pc
  | .idx => t.idx = s.idx
  | .stack => t.stack = s.stack
  | .dt => t.dt = s.dt
  | .st => t.st = s.st
  | .mem => ∀ a : Nat, t.readByte a = s.readByte a
  | .fb => ∀ y x : Nat, t.fb.pixel y x = s.fb.pixel y x
  | .fault => t.fault = s.fault
  | .updated => t.updated = s.updated
  | .rest => t.loadError = s.loadError ∧ t.keys = s.keys ∧ t.rnd = s.rnd ∧ t.pending = s.pending ∧
      t.draws = s.draws ∧ t.params = s.params

/-- Every piece outside the list is the same in both states. -/
def UnchangedExcept (changed : List Piece) (s t : State) : Prop :=
  ∀ p : Piece, p ∉ changed → p.same s t

/-- The state of the core is the same but for the fault latch (60 R205 (a)); memory and display as data. -/
def SameCore (s t : State) : Prop :=
  t.v = s.v ∧ t.idx = s.idx ∧ t.pc = s.pc ∧ t.stack = s.stack ∧ t.dt = s.dt ∧ t.st = s.st ∧
    t.mem = s.mem ∧ t.fb = s.fb ∧ t.params = s.params

/-- What the latch records fits the condition it names (60 R200). -/
def Fatal.sound (k : Fatal) : Prop :=
  match k with
  | .invalidInstruction op => decodeWord op = none
  | .emptyStackReturn => True
  | .fontIndexOutOfRange v => 16 ≤ v.toNat
  | .addressOutOfRange a => 0x1000 ≤ a ∧ a ≤ 0xFFFF

/-- The invariant of the machine: memory in its canonical form; the pc at most 0x10FE and every return address at most 0x1000 (10_state R26); the latch sound; no display update reported beside a set latch (R205 (c)). -/
structure State.Inv (s : State) : Prop where
  mem_wf : Memory.wf s.params.font s.mem
  pc_le : s.pc.toNat ≤ 0x10FE
  stack_le : ∀ a ∈ s.stack, a.toNat ≤ 0x1000
  fault_sound : ∀ k, s.fault = some k → k.sound
  fault_quiet : s.fault ≠ none → s.updated = false

/-- A safe state: the latch is clear. A state with the latch set is never a final state of a correct run (60 R206). -/
def State.safe (s : State) : Prop := s.fault = none

/-- The idle end of a run, by the spec's convention for test programs: the pc holds the address of a 1NNN whose NNN is that address (00_scope R12, 92 D15; log 12). -/
def State.idle (s : State) : Prop :=
  s.fault = none ∧ s.pc.toNat ≤ 0xFFE ∧
    ∃ nnn : BitVec 12, decodeWord (s.wordAt s.pc.toNat) = some (.jp nnn) ∧ zextNNN nnn = s.pc

/-- The caller's next operation is a STEP with these inputs; with an empty queue the inputs are free (log 2, log 3). -/
def State.nextIsStep (s : State) (keys : Keypad) (rnd : Byte) : Prop :=
  (∃ rest, s.pending = .step keys rnd :: rest) ∨
    (s.pending = [] ∧ keys = Config.freeKeys s.draws ∧ rnd = Config.freeByte s.draws)

/-- The state after the caller's next operation has been taken from the queue, or a free input drawn. -/
def State.dequeue (s : State) : State :=
  match s.pending with
  | _ :: rest => { s with pending := rest }
  | [] => { s with draws := s.draws + 1 }

/-- `exec i s` answers a next state, and that state has the property. -/
def Completes (i : Instr) (s : State) (P : State → Prop) : Prop :=
  ∃ t, exec i s = .next t ∧ P t

/-- The instruction, started at `s` (its pc already advanced), raises `k`: a next state whose pc is the offending instruction's again, whose latch holds `k`, which reports no display update, and in which nothing else has changed (60 R205). -/
def Raises (i : Instr) (s : State) (k : Fatal) : Prop :=
  Completes i s fun t =>
    t.pc = s.pc - 2 ∧ t.fault = some k ∧ t.updated = false ∧ UnchangedExcept [.pc, .fault, .updated] s t

/-- The flag VF as 0 or 1 says whether a proposition holds (10_state R21). -/
def FlagSays (t : State) (p : Prop) : Prop := (p ∧ t.getV regF = 1) ∨ (¬ p ∧ t.getV regF = 0)

/-- Position (py, px) is set by the sprite that DXYN with these operands draws: sprite row `r` is the byte at I + r, its bit `b` from the left is column x0 + b of display row y0 + r, and what lies past row 31 or column 63 is clipped (43 R171, R173). -/
def State.spriteCovers (s : State) (x y : Reg) (rows py px : Nat) : Prop :=
  ∃ r b : Nat, r < rows ∧ b < 8 ∧ py = (s.getV y).toNat % 32 + r ∧ px = (s.getV x).toNat % 64 + b ∧
    py < 32 ∧ px < 64 ∧ (s.readByte (s.dataBase + r)).getLsbD (7 - b) = true

/-- The pc an instruction leaves when it raises nothing, from the address it was fetched from (the table of 10_state R25). -/
def pcAfter (i : Instr) (s : State) (pc0 : Word) : Word :=
  match i with
  | .jp nnn | .call nnn => zextNNN nnn
  | .jpV0 nnn => zextNNN nnn + zextByte (s.getV 0)
  | .ret => s.stack.headD 0
  | .seImm x nn => if s.getV x = nn then pc0 + 4 else pc0 + 2
  | .sneImm x nn => if s.getV x ≠ nn then pc0 + 4 else pc0 + 2
  | .seReg x y => if s.getV x = s.getV y then pc0 + 4 else pc0 + 2
  | .sneReg x y => if s.getV x ≠ s.getV y then pc0 + 4 else pc0 + 2
  | .skp x => if pressed s.keys (s.getV x) = true then pc0 + 4 else pc0 + 2
  | .sknp x => if pressed s.keys (s.getV x) = true then pc0 + 2 else pc0 + 4
  | .ldVxK _ => if ∃ k : Fin 16, s.keys[k] = true then pc0 + 2 else pc0
  | .cls | .ldImm _ _ | .addImm _ _ | .ldReg _ _ | .or _ _ | .and _ _ | .xor _ _ | .addReg _ _
  | .sub _ _ | .shr _ _ | .subn _ _ | .shl _ _ | .ldI _ | .rnd _ _ | .drw _ _ _ | .ldVxDt _
  | .ldDtVx _ | .ldStVx _ | .addI _ | .ldF _ | .ldB _ | .stRegs _ | .ldRegs _ => pc0 + 2

end Sys2Proof.Machine

namespace Sys2Proof

/-- The register an instruction names as the destination of a result; FX65 names a block (10_state R20, R21). -/
def Instr.writesV (i : Instr) (r : Reg) : Prop :=
  match i with
  | .ldImm x _ | .addImm x _ | .ldReg x _ | .or x _ | .and x _ | .xor x _ | .addReg x _ | .sub x _
  | .shr x _ | .subn x _ | .shl x _ | .rnd x _ | .ldVxDt x | .ldVxK x => r = x
  | .ldRegs last => r.val ≤ last
  | .cls | .ret | .jp _ | .call _ | .seImm _ _ | .sneImm _ _ | .seReg _ _ | .sneReg _ _ | .ldI _
  | .jpV0 _ | .drw _ _ _ | .skp _ | .sknp _ | .ldDtVx _ | .ldStVx _ | .addI _ | .ldF _ | .ldB _
  | .stRegs _ => False

/-- The seven instructions that write x[15] as a flag (10_state R21). -/
def Instr.writesFlag (i : Instr) : Prop :=
  match i with
  | .addReg _ _ | .sub _ _ | .subn _ _ | .shr _ _ | .shl _ _ | .addI _ | .drw _ _ _ => True
  | .cls | .ret | .jp _ | .call _ | .seImm _ _ | .sneImm _ _ | .seReg _ _ | .ldImm _ _ | .addImm _ _
  | .ldReg _ _ | .or _ _ | .and _ _ | .xor _ _ | .sneReg _ _ | .ldI _ | .jpV0 _ | .rnd _ _ | .skp _
  | .sknp _ | .ldVxDt _ | .ldVxK _ | .ldDtVx _ | .ldStVx _ | .ldF _ | .ldB _ | .stRegs _
  | .ldRegs _ => False

end Sys2Proof
end

