-- ==== Sys2Proof/Certificates/Slice0/Obligations.lean ====
section
/-! DEFINITION. The statements for the provers. Each docstring names the rule of spec/ it formalises; "at exec" means on the state whose pc is already advanced (30_encoding R73). Where a statement rests on a decision of the spec (92_eei_decisions) or on a choice of the model, it says so. -/

open Sys2Proof Sys2Proof.Machine

/-! ## Encoding (30_encoding) -/

/-- Decode of encode is the instruction, for every well-formed instruction, with the bytes after it left over (R70, R74, R76; byte order by the spec's decision D2). -/
def Obligations.DecodeOfEncodeIsTheInstruction : Prop :=
  ∀ (i : Instr) (rest : List Byte), i.wf → decode (encodeBytes i ++ rest) = .ok (i, rest)

/-- Every word that decodes has one meaning: the instruction is well-formed and its encoding is that word (R74, R76). -/
def Obligations.EncodeOfDecodeIsTheWord : Prop :=
  ∀ (op : Word) (i : Instr), decodeWord op = some i → i.wf ∧ encode i = op

/-- "A word op selects the row for which op AND mask = match; the rows are disjoint": the decoder gives the row's instruction, and refuses exactly the words that no row selects (R76, R78). -/
def Obligations.DecoderFollowsTheOpcodeMap : Prop :=
  (∀ (op : Word) (i : Instr), decodeWord op = some i →
    i.opRow ∈ opcodeMap ∧ i.opRow.selects op ∧ ∀ r ∈ opcodeMap, r.selects op → r = i.opRow) ∧
  (∀ op : Word, decodeWord op = none ↔ ∀ r ∈ opcodeMap, ¬ r.selects op)

/-- A few words written out from the encodings of R76 decode to the instructions they stand for, and one word of each invalid class is refused (the words of 95_test_vectors V-DEC-1 to V-DEC-20). -/
def Obligations.SampleWordsDecodeAsWritten : Prop :=
  decodeWord 0b1101_0101_1010_0011 = some (.drw 5 10 3) ∧
  decodeWord 0b0000_0000_1110_0000 = some .cls ∧
  decodeWord 0b0000_0000_1110_1110 = some .ret ∧
  decodeWord 0b0001_1010_1011_1100 = some (.jp 0xABC) ∧
  decodeWord 0b1000_1010_1011_0110 = some (.shr 10 11) ∧
  decodeWord 0b1111_1110_0110_0101 = some (.ldRegs 14) ∧
  decodeWord 0b1110_0000_1010_0001 = some (.sknp 0) ∧
  decodeWord 0b0111_1111_1111_1111 = some (.addImm 15 0xFF) ∧
  decodeWord 0x0000 = none ∧ decodeWord 0x0123 = none ∧ decodeWord 0x5121 = none ∧
  decodeWord 0x8128 = none ∧ decodeWord 0x812F = none ∧ decodeWord 0x9121 = none ∧
  decodeWord 0xE19F = none ∧ decodeWord 0xF156 = none

/-! ## The STEP procedure (30 R73, 60 R201 to R210) -/

/-- A STEP runs the decoded instruction: where the latch is clear, the fetch is in range and the two bytes at the pc, high byte first, decode to `i`, step is exec of `i` on the state whose inputs are this STEP's, whose `updated` is false and whose pc is advanced by 2, all else as it was (R73; D2 for the byte order). The STEP leaves the caller's queue, or, with an empty queue, the counter of free inputs is advanced (log 2, log 3). -/
def Obligations.StepRunsTheDecodedInstruction : Prop :=
  ∀ (s : State) (keys : Keypad) (rnd : Byte) (i : Instr),
    s.nextIsStep keys rnd → s.fault = none → s.pc.toNat + 1 ≤ 0xFFF →
    decode [s.readByte s.pc.toNat, s.readByte (s.pc.toNat + 1)] = .ok (i, []) →
    ∃ b : State, step s = exec i b ∧ b.pc = s.pc + 2 ∧ b.updated = false ∧ b.keys = keys ∧ b.rnd = rnd ∧
      b.pending = s.pending.tail ∧ b.params = s.params ∧ b.loadError = s.loadError ∧
      b.draws = (if s.pending = [] then s.draws + 1 else s.draws) ∧
      UnchangedExcept [.pc, .updated, .rest] s b

/-- When the bytes at the pc are the encoding of a well-formed instruction, step runs that instruction (R73, R76). -/
def Obligations.StepRunsTheEncodedInstruction : Prop :=
  ∀ (s : State) (keys : Keypad) (rnd : Byte) (i : Instr),
    s.nextIsStep keys rnd → s.fault = none → s.pc.toNat + 1 ≤ 0xFFF → i.wf →
    [s.readByte s.pc.toNat, s.readByte (s.pc.toNat + 1)] = encodeBytes i →
    step s = exec i (s.dequeue.begin keys rnd)

/-- A word that matches no row raises InvalidInstruction(op) as a whole: the core is as before the STEP, the latch holds the word (R201, R205; the unchanged pc and the latch are the spec's decision D8). -/
def Obligations.InvalidWordIsFatal : Prop :=
  ∀ (s : State) (keys : Keypad) (rnd : Byte),
    s.nextIsStep keys rnd → s.fault = none → s.pc.toNat + 1 ≤ 0xFFF →
    decodeWord (joinBytes (s.readByte s.pc.toNat) (s.readByte (s.pc.toNat + 1))) = none →
    ∃ t, step s = .next t ∧ SameCore s t ∧ t.updated = false ∧
      t.fault = some (.invalidInstruction (joinBytes (s.readByte s.pc.toNat) (s.readByte (s.pc.toNat + 1))))

/-- A fetch that would touch a byte above 0xFFF raises AddressOutOfRange of the lowest such address, whatever the bytes are: pc + 1 at 0xFFF, else pc (30 R73, 10 R26; the spec's decisions D4 and D8). -/
def Obligations.FetchAboveMemoryIsFatal : Prop :=
  ∀ (s : State) (keys : Keypad) (rnd : Byte),
    s.nextIsStep keys rnd → s.fault = none → 0xFFE < s.pc.toNat →
    ∃ t, step s = .next t ∧ SameCore s t ∧ t.updated = false ∧
      t.fault = some (.addressOutOfRange (if s.pc.toNat = 0xFFF then 0x1000 else s.pc.toNat))

/-- "each instruction's effects should be applied only after all its fatal-condition checks pass": a step that sets the latch has changed nothing else of the core, the pc included, and reports no display update (60 R205; the spec's decision D8 for the pc and the latch). -/
def Obligations.FatalStepChangesNothingElse : Prop :=
  ∀ s t : State, s.fault = none → step s = .next t → t.fault ≠ none → SameCore s t ∧ t.updated = false

/-- The latch is sticky: while it is set a step changes nothing of the core, unless it is a RESET of a program that fits, which clears it (60 R206, R210; the spec's decision D8). -/
def Obligations.LatchHoldsUntilReset : Prop :=
  ∀ s : State, s.fault ≠ none →
    ∃ t, step s = .next t ∧
      ((SameCore s t ∧ t.fault = s.fault) ∨
        ∃ program rest, s.pending = .reset program :: rest ∧ program.length ≤ 3584 ∧ t.fault = none)

/-- Every step answers a next state: each fatal condition is taken as the spec describes, so no run of the model ends in a fault or a refusal (log 1). -/
def Obligations.EveryStepAnswersANextState : Prop :=
  (∀ s : State, ∃ t, step s = .next t) ∧ ∀ (i : Instr) (s : State), ∃ t, exec i s = .next t

/-- Every step keeps the invariant: the pc at most 0x10FE and every return address at most 0x1000 (10 R26), what the latch records fitting the condition it names (60 R200), memory in canonical form (the model's choice of form, log 8), and no display update beside a set latch (60_exceptions section 2, R205 (c): the spec's decision D8, log 17). -/
def Obligations.StepKeepsTheInvariant : Prop :=
  ∀ s t : State, s.Inv → step s = .next t → t.Inv

/-- The state after reset meets the invariant of StepKeepsTheInvariant, whose clause on the form of memory is the model's choice (log 8) and whose clause on `updated` and the latch is the spec's decision D8 (log 17). -/
def Obligations.ResetMeetsTheInvariant : Prop := State.reset.Inv

/-- No step changes the parameters FONT and SUB_FLAG (00_scope R6; that they stand in State is the model's choice, log 6 and log 7). -/
def Obligations.StepKeepsTheParameters : Prop :=
  ∀ s t : State, step s = .next t → t.params = s.params

/-- How each instruction leaves the pc, from the address pc0 it was fetched from: the table of 10_state R25, its last row (a fatal condition) included; additions modulo 2^16 (the spec's decision D19). -/
def Obligations.EveryInstructionLeavesThePcAsTabled : Prop :=
  ∀ (i : Instr) (s t : State) (pc0 : Word), s.pc = pc0 + 2 → s.fault = none → exec i s = .next t →
    (t.fault = none → t.pc = pcAfter i s pc0) ∧ (t.fault ≠ none → t.pc = pc0)

/-! ## Control transfer (40_flow) -/

/-- 1NNN and 2NNN: the target is NNN, absolute; 2NNN pushes the advanced pc, whatever the depth of the stack (R101, R102). -/
def Obligations.JumpAndCallGoToTheirTarget : Prop :=
  ∀ (nnn : BitVec 12) (s : State),
    (Instr.jp nnn).opRow = ⟨0x1000, 0xF000⟩ ∧ (Instr.call nnn).opRow = ⟨0x2000, 0xF000⟩ ∧
    Completes (.jp nnn) s (fun t => t.pc.toNat = nnn.toNat ∧ UnchangedExcept [.pc] s t) ∧
    Completes (.call nnn) s (fun t => t.pc.toNat = nnn.toNat ∧ t.stack = s.pc :: s.stack ∧
      UnchangedExcept [.pc, .stack] s t)

/-- BNNN: the target is NNN plus register 0, not masked, and never wraps (R103; not masked by the spec's decision D4). -/
def Obligations.JumpWithOffsetAddsRegisterZero : Prop :=
  ∀ (nnn : BitVec 12) (s : State),
    Completes (.jpV0 nnn) s fun t =>
      t.pc.toNat = nnn.toNat + (s.getV 0).toNat ∧ UnchangedExcept [.pc] s t

/-- 00EE pops the top of the stack into the pc, as it is; on an empty stack it raises EmptyStackReturn and nothing changes (R100, 60 R202; the unchanged pc is the spec's decision D8). -/
def Obligations.ReturnPopsOrIsFatal : Prop :=
  ∀ s : State,
    (∀ (a : Word) (rest : List Word), s.stack = a :: rest →
      Completes .ret s fun t => t.pc = a ∧ t.stack = rest ∧ UnchangedExcept [.pc, .stack] s t) ∧
    (s.stack = [] → Raises .ret s .emptyStackReturn)

/-- "`2NNN` followed immediately by `00EE` restores the program counter to the instruction after the original `2NNN`", and the stack and everything else with it (R100, R102). -/
def Obligations.CallThenReturnRestores : Prop :=
  ∀ (nnn : BitVec 12) (s : State),
    Completes (.call nnn) s fun t => Completes .ret t.advance fun u => UnchangedExcept [] s u

/-- The four register skips: pc + 2 modulo 2^16 exactly when the condition holds, nothing else changed; 3XNN and 4XNN, and 5XY0 and 9XY0, are each other's opposite (R104 to R107). -/
def Obligations.RegisterSkipsFollowTheirCondition : Prop :=
  ∀ (x y : Reg) (nn : Byte) (s : State),
    (Instr.seImm x nn).opRow = ⟨0x3000, 0xF000⟩ ∧ (Instr.sneImm x nn).opRow = ⟨0x4000, 0xF000⟩ ∧
    (Instr.seReg x y).opRow = ⟨0x5000, 0xF00F⟩ ∧ (Instr.sneReg x y).opRow = ⟨0x9000, 0xF00F⟩ ∧
    Completes (.seImm x nn) s (fun t => UnchangedExcept [.pc] s t ∧
      t.pc.toNat = if (s.getV x).toNat = nn.toNat then (s.pc.toNat + 2) % 65536 else s.pc.toNat) ∧
    Completes (.sneImm x nn) s (fun t => UnchangedExcept [.pc] s t ∧
      t.pc.toNat = if (s.getV x).toNat = nn.toNat then s.pc.toNat else (s.pc.toNat + 2) % 65536) ∧
    Completes (.seReg x y) s (fun t => UnchangedExcept [.pc] s t ∧
      t.pc.toNat = if (s.getV x).toNat = (s.getV y).toNat then (s.pc.toNat + 2) % 65536 else s.pc.toNat) ∧
    Completes (.sneReg x y) s (fun t => UnchangedExcept [.pc] s t ∧
      t.pc.toNat = if (s.getV x).toNat = (s.getV y).toNat then s.pc.toNat else (s.pc.toNat + 2) % 65536)

/-! ## Registers and ALU (41_alu) -/

/-- 6XNN, 7XNN and 8XY0: the destination gets NN, the sum modulo 256, x[Y]; every other register, VF among them, and everything else is unchanged (R120, R121, R122). -/
def Obligations.MovesAndAddImmediate : Prop :=
  ∀ (x y : Reg) (nn : Byte) (s : State),
    (Instr.ldImm x nn).opRow = ⟨0x6000, 0xF000⟩ ∧ (Instr.addImm x nn).opRow = ⟨0x7000, 0xF000⟩ ∧
    (Instr.ldReg x y).opRow = ⟨0x8000, 0xF00F⟩ ∧
    Completes (.ldImm x nn) s (fun t => UnchangedExcept [.v] s t ∧
      ∀ r, t.getV r = if r = x then nn else s.getV r) ∧
    Completes (.addImm x nn) s (fun t => UnchangedExcept [.v] s t ∧
      ∀ r, (t.getV r).toNat = if r = x then ((s.getV x).toNat + nn.toNat) % 256 else (s.getV r).toNat) ∧
    Completes (.ldReg x y) s (fun t => UnchangedExcept [.v] s t ∧
      ∀ r, t.getV r = if r = x then s.getV y else s.getV r)

/-- 8XY1, 8XY2, 8XY3 act on all 8 bits independently and write no flag: only x[X] changes (R123 to R126; that VF is not written is the spec's decision D17). -/
def Obligations.BitwiseOperationsActBitByBit : Prop :=
  ∀ (x y : Reg) (s : State),
    Completes (.or x y) s (fun t => UnchangedExcept [.v] s t ∧ ∀ r, ∀ k < 8,
      (t.getV r).getLsbD k = if r = x then ((s.getV x).getLsbD k || (s.getV y).getLsbD k) else (s.getV r).getLsbD k) ∧
    Completes (.and x y) s (fun t => UnchangedExcept [.v] s t ∧ ∀ r, ∀ k < 8,
      (t.getV r).getLsbD k = if r = x then ((s.getV x).getLsbD k && (s.getV y).getLsbD k) else (s.getV r).getLsbD k) ∧
    Completes (.xor x y) s (fun t => UnchangedExcept [.v] s t ∧ ∀ r, ∀ k < 8,
      (t.getV r).getLsbD k = if r = x then ((s.getV x).getLsbD k != (s.getV y).getLsbD k) else (s.getV r).getLsbD k)

/-- 8XY4: the sum modulo 256 to x[X], then the carry to VF, which replaces the sum where X = 15; every other register and everything else unchanged (R128, R127). -/
def Obligations.AddWritesSumThenCarry : Prop :=
  ∀ (x y : Reg) (s : State),
    (Instr.addReg x y).opRow = ⟨0x8004, 0xF00F⟩ ∧
    Completes (.addReg x y) s fun t => UnchangedExcept [.v] s t ∧
      FlagSays t ((s.getV x).toNat + (s.getV y).toNat > 255) ∧
      ∀ r, r ≠ regF → (t.getV r).toNat =
        if r = x then ((s.getV x).toNat + (s.getV y).toNat) % 256 else (s.getV r).toNat

/-- 8XY5 and 8XY7: the difference modulo 256 to x[X], then VF: 1 exactly when no borrow was needed, equality included, under SUB_FLAG = not_borrow, and the inverse under SUB_FLAG = borrow; with X = 15 the flag remains (R129, R131; the polarity is the spec's decision D5, log 7). -/
def Obligations.SubtractionsWriteDifferenceThenBorrow : Prop :=
  ∀ (x y : Reg) (s : State),
    Completes (.sub x y) s (fun t => UnchangedExcept [.v] s t ∧
      (s.params.subFlag = .notBorrow → FlagSays t ((s.getV x).toNat ≥ (s.getV y).toNat)) ∧
      (s.params.subFlag = .borrow → FlagSays t ((s.getV x).toNat < (s.getV y).toNat)) ∧
      ∀ r, r ≠ regF → (t.getV r).toNat =
        if r = x then ((s.getV x).toNat + 256 - (s.getV y).toNat) % 256 else (s.getV r).toNat) ∧
    Completes (.subn x y) s (fun t => UnchangedExcept [.v] s t ∧
      (s.params.subFlag = .notBorrow → FlagSays t ((s.getV y).toNat ≥ (s.getV x).toNat)) ∧
      (s.params.subFlag = .borrow → FlagSays t ((s.getV y).toNat < (s.getV x).toNat)) ∧
      ∀ r, r ≠ regF → (t.getV r).toNat =
        if r = x then ((s.getV y).toNat + 256 - (s.getV x).toNat) % 256 else (s.getV r).toNat)

/-- 8XY6 and 8XYE shift x[X] in place by one, then write the bit shifted out, bit 0 and bit 7 and only that bit; Y is ignored; with X = 15 the flag remains (R130, R132, R133). -/
def Obligations.ShiftsWriteResultThenBitOut : Prop :=
  ∀ (x y : Reg) (s : State),
    (Instr.shr x y).opRow = ⟨0x8006, 0xF00F⟩ ∧ (Instr.shl x y).opRow = ⟨0x800E, 0xF00F⟩ ∧
    (∀ z : Reg, exec (.shr x z) s = exec (.shr x y) s ∧ exec (.shl x z) s = exec (.shl x y) s) ∧
    Completes (.shr x y) s (fun t => UnchangedExcept [.v] s t ∧
      FlagSays t ((s.getV x).toNat % 2 = 1) ∧
      ∀ r, r ≠ regF → (t.getV r).toNat = if r = x then (s.getV x).toNat / 2 else (s.getV r).toNat) ∧
    Completes (.shl x y) s (fun t => UnchangedExcept [.v] s t ∧
      FlagSays t ((s.getV x).toNat ≥ 128) ∧
      ∀ r, r ≠ regF → (t.getV r).toNat = if r = x then (s.getV x).toNat * 2 % 256 else (s.getV r).toNat)

/-- CXNN: x[X] gets the STEP's random byte AND NN; the result has no bit outside NN, the old x[X] has no influence, and every value with no bit outside NN is possible (R134; `rnd` as a free byte is the spec's decision D11). -/
def Obligations.RandomByteIsMasked : Prop :=
  ∀ (x : Reg) (nn : Byte) (s : State),
    Completes (.rnd x nn) s (fun t => UnchangedExcept [.v] s t ∧
      (∀ k < 8, (t.getV x).getLsbD k = (s.rnd.getLsbD k && nn.getLsbD k)) ∧
      ∀ r, r ≠ x → t.getV r = s.getV r) ∧
    ∀ v : Byte, v &&& ~~~nn = 0 → ∃ b : Byte, Completes (.rnd x nn) { s with rnd := b } fun t => t.getV x = v

/-- Only the seven instructions of R21 write VF as a flag, and then it is 0 or 1: any other instruction leaves x[15] as it was unless it names register 15 as its destination (10 R21, R22; for the rows that name no flag the spec's decision D17). -/
def Obligations.FlagRegisterIsWrittenOnlyAsTabled : Prop :=
  ∀ (i : Instr) (s t : State), s.fault = none → exec i s = .next t →
    (i.writesFlag → t.fault = none → t.getV regF = 0 ∨ t.getV regF = 1) ∧
    (¬ i.writesFlag → ¬ i.writesV regF → t.getV regF = s.getV regF)

/-- An instruction changes no general register but those it names as its destination and VF where it writes a flag (10 R20, R21, R22). -/
def Obligations.RegistersChangeOnlyAsNamed : Prop :=
  ∀ (i : Instr) (s t : State) (r : Reg), exec i s = .next t →
    ¬ i.writesV r → ¬ (i.writesFlag ∧ r = regF) → t.getV r = s.getV r

/-! ## Index register and memory (42_index_memory, 20_memory) -/

/-- ANNN and FX1E: I gets NNN zero-extended; I gets the sum modulo 2^16 and VF, last and also where X = 15, whether the sum passed 0xFFFF (R150, R151). -/
def Obligations.IndexLoadAndAdd : Prop :=
  ∀ (nnn : BitVec 12) (x : Reg) (s : State),
    (Instr.ldI nnn).opRow = ⟨0xA000, 0xF000⟩ ∧ (Instr.addI x).opRow = ⟨0xF01E, 0xF0FF⟩ ∧
    Completes (.ldI nnn) s (fun t => t.idx.toNat = nnn.toNat ∧ UnchangedExcept [.idx] s t) ∧
    Completes (.addI x) s (fun t => UnchangedExcept [.idx, .v] s t ∧
      t.idx.toNat = (s.idx.toNat + (s.getV x).toNat) % 65536 ∧
      FlagSays t (s.idx.toNat + (s.getV x).toNat > 65535) ∧ ∀ r, r ≠ regF → t.getV r = s.getV r)

/-- FX29: I gets 0x050 + 5 x[X] where the value is at most 15, and above 15 raises FontIndexOutOfRange of the value, unmasked, with nothing changed (R152, 60 R203; the unchanged pc is the spec's decision D8). -/
def Obligations.FontAddressOrFatal : Prop :=
  ∀ (x : Reg) (s : State),
    ((s.getV x).toNat ≤ 15 → Completes (.ldF x) s fun t =>
      t.idx.toNat = 0x050 + 5 * (s.getV x).toNat ∧ UnchangedExcept [.idx] s t) ∧
    ((s.getV x).toNat > 15 → Raises (.ldF x) s (.fontIndexOutOfRange (s.getV x)))

/-- FX33: where I + 2 is inside memory, the three digits of x[X] are at I, I + 1, I + 2, hundreds first, each 0 to 9; every other byte and everything else is unchanged (R153; the range by the spec's decision D4). -/
def Obligations.DecimalDigitsAreStored : Prop :=
  ∀ (x : Reg) (s : State), Memory.wf s.params.font s.mem → s.dataBase + 2 ≤ 0xFFF →
    Completes (.ldB x) s fun t => UnchangedExcept [.mem] s t ∧
      (∀ a, ¬ (s.dataBase ≤ a ∧ a ≤ s.dataBase + 2) → t.readByte a = s.readByte a) ∧
      (s.getV x).toNat = 100 * (t.readByte s.dataBase).toNat + 10 * (t.readByte (s.dataBase + 1)).toNat +
        (t.readByte (s.dataBase + 2)).toNat ∧
      (t.readByte s.dataBase).toNat ≤ 2 ∧ (t.readByte (s.dataBase + 1)).toNat ≤ 9 ∧
      (t.readByte (s.dataBase + 2)).toNat ≤ 9

/-- FX55: where I + X is inside memory, x[0] .. x[X] are at I .. I + X; every other byte, I, the registers and everything else unchanged (R154; the range by the spec's decision D4). -/
def Obligations.RegistersAreStored : Prop :=
  ∀ (last : Nat) (s : State), (Instr.stRegs last).wf → Memory.wf s.params.font s.mem → s.dataBase + last ≤ 0xFFF →
    Completes (.stRegs last) s fun t => UnchangedExcept [.mem] s t ∧
      (∀ r : Reg, r.val ≤ last → t.readByte (s.dataBase + r.val) = s.getV r) ∧
      ∀ a, ¬ (s.dataBase ≤ a ∧ a ≤ s.dataBase + last) → t.readByte a = s.readByte a

/-- FX65: where I + X is inside memory, x[0] .. x[X] get the bytes at I .. I + X; the registers above, I, memory and everything else unchanged (R155; the range by the spec's decision D4). -/
def Obligations.RegistersAreLoaded : Prop :=
  ∀ (last : Nat) (s : State), (Instr.ldRegs last).wf → s.dataBase + last ≤ 0xFFF →
    Completes (.ldRegs last) s fun t => UnchangedExcept [.v] s t ∧
      ∀ r : Reg, t.getV r = if r.val ≤ last then s.readByte (s.dataBase + r.val) else s.getV r

/-- "FX55 followed by FX65 with the same X and I restores the registers", whatever the registers were in between (R155). -/
def Obligations.StoreThenLoadRestoresRegisters : Prop :=
  ∀ (last : Nat) (s : State) (v : Regs), (Instr.stRegs last).wf → Memory.wf s.params.font s.mem →
    s.dataBase + last ≤ 0xFFF →
    Completes (.stRegs last) s fun t => Completes (.ldRegs last) { t with v := v } fun u =>
      ∀ r : Reg, r.val ≤ last → u.getV r = s.getV r

/-- A data access that would touch a byte above 0xFFF raises AddressOutOfRange of the lowest such address, max(I, 0x1000), and nothing changes, not even the bytes in range: FX33 at I + 2, FX55 and FX65 at I + X, DXYN with N >= 1 at I + N - 1 (20 R57, 42 R156, R157; the spec's decisions D4, D8 and D19). -/
def Obligations.AccessAboveMemoryIsFatal : Prop :=
  ∀ (x y : Reg) (n : Nat) (s : State),
    (0xFFF < s.dataBase + 2 → Raises (.ldB x) s (.addressOutOfRange (max s.dataBase 0x1000))) ∧
    (0xFFF < s.dataBase + n → Raises (.stRegs n) s (.addressOutOfRange (max s.dataBase 0x1000))) ∧
    (0xFFF < s.dataBase + n → Raises (.ldRegs n) s (.addressOutOfRange (max s.dataBase 0x1000))) ∧
    (1 ≤ n → 0xFFF < s.dataBase + n - 1 → Raises (.drw x y n) s (.addressOutOfRange (max s.dataBase 0x1000)))

/-- Only FX33 and FX55 write memory, only 2NNN and 00EE the call stack, only ANNN, FX1E and FX29 the index register (20 R58, 10 R28, R27). -/
def Obligations.MemoryStackAndIndexHaveTheirWriters : Prop :=
  ∀ (i : Instr) (s t : State), exec i s = .next t →
    (t.mem ≠ s.mem → (∃ x, i = .ldB x) ∨ ∃ last, i = .stRegs last) ∧
    (t.stack ≠ s.stack → i = .ret ∨ ∃ nnn, i = .call nnn) ∧
    (t.idx ≠ s.idx → (∃ nnn, i = .ldI nnn) ∨ (∃ x, i = .addI x) ∨ ∃ x, i = .ldF x)

/-- "every read returns the value of the latest write to that byte": reading after a write, at that address and elsewhere (20 R60); and a write inside memory keeps the canonical form (no rule of the spec: the model's form of memory, log 8). -/
def Obligations.ReadReturnsTheLatestWrite : Prop :=
  ∀ (f : Font) (m : Memory) (a : Nat) (b : Byte), Memory.wf f m → a ≤ 0xFFF →
    Memory.wf f (Memory.write f m a b) ∧
    ∀ q, Memory.read f (Memory.write f m a b) q = if q = a then b else Memory.read f m q

/-- Equal memories are equal data: two canonical memories that read alike at every address are the same list (the model's form of memory, log 8). -/
def Obligations.MemoriesThatReadAlikeAreEqual : Prop :=
  ∀ (f : Font) (m n : Memory), Memory.wf f m → Memory.wf f n →
    (∀ a, Memory.read f m a = Memory.read f n a) → m = n

/-- A store is seen by a fetch from the same bytes with nothing between: after FX55, the word at any stored address but the last is made of the registers stored there (20 R62). -/
def Obligations.StoreIsSeenByTheFetch : Prop :=
  ∀ (last : Nat) (s : State), (Instr.stRegs last).wf → Memory.wf s.params.font s.mem → s.dataBase + last ≤ 0xFFF →
    Completes (.stRegs last) s fun t => ∀ r q : Reg, q.val = r.val + 1 → q.val ≤ last →
      { t with pc := BitVec.ofNat 16 (s.dataBase + r.val) }.fetch = .ok (joinBytes (s.getV r) (s.getV q))

/-! ## Display (43_display) -/

/-- 00E0: every pixel off, `updated` true, nothing else changed, VF not written (R170). -/
def Obligations.ClearTurnsEveryPixelOff : Prop :=
  ∀ s : State, Instr.cls.opRow = ⟨0x00E0, 0xFFFF⟩ ∧
    Completes .cls s fun t => (∀ y x : Nat, t.fb.pixel y x = false) ∧ t.updated = true ∧
      UnchangedExcept [.fb, .updated] s t

/-- DXYN as a function: every position of the clipped sprite is inverted and every other pixel is unchanged; VF is 1 if some position of it was on before, else 0; `updated` is true; no other register and nothing else changes (R173; the coordinates are read before VF is cleared by the spec's decision D14). -/
def Obligations.DrawInvertsTheClippedSprite : Prop :=
  ∀ (x y : Reg) (rows : Nat) (s : State), (Instr.drw x y rows).wf → rows = 0 ∨ s.dataBase + rows - 1 ≤ 0xFFF →
    Completes (.drw x y rows) s fun t => UnchangedExcept [.v, .fb, .updated] s t ∧ t.updated = true ∧
      (∀ py px : Nat, s.spriteCovers x y rows py px → t.fb.pixel py px = !s.fb.pixel py px) ∧
      (∀ py px : Nat, ¬ s.spriteCovers x y rows py px → t.fb.pixel py px = s.fb.pixel py px) ∧
      FlagSays t (∃ py px : Nat, s.spriteCovers x y rows py px ∧ s.fb.pixel py px = true) ∧
      ∀ r, r ≠ regF → t.getV r = s.getV r

/-- "Drawing the same sprite at the same place twice restores the display exactly", and the second draw reports 1 exactly when some position of the sprite was off before the first (R173). The registers are put back in between, so that the place is the same also where X or Y is 15. -/
def Obligations.DrawTwiceRestoresTheDisplay : Prop :=
  ∀ (x y : Reg) (rows : Nat) (s : State), (Instr.drw x y rows).wf → rows = 0 ∨ s.dataBase + rows - 1 ≤ 0xFFF →
    Completes (.drw x y rows) s fun t => Completes (.drw x y rows) { t with v := s.v } fun u =>
      (∀ py px : Nat, u.fb.pixel py px = s.fb.pixel py px) ∧
      FlagSays u (∃ py px : Nat, s.spriteCovers x y rows py px ∧ s.fb.pixel py px = false)

/-- "Mutated only by the clear-screen and draw instructions": every other instruction, and TICK, leaves every pixel as it was (R174). -/
def Obligations.DisplayHasTwoWriters : Prop :=
  (∀ (i : Instr) (s t : State), exec i s = .next t → i ≠ .cls → (∀ x y rows, i ≠ .drw x y rows) → t.fb = s.fb) ∧
  ∀ (s t : State) (rest : List CallerOp), s.pending = .tick :: rest → step s = .next t → t.fb = s.fb

/-- STEP returns `updated` = true for 00E0 and DXYN, unconditionally, and false for every other instruction and for a STEP that raises (R175, 10 R40; the false by the spec's decision D16). -/
def Obligations.UpdatedExactlyForClearAndDraw : Prop :=
  ∀ (i : Instr) (s t : State), s.updated = false → s.fault = none → exec i s = .next t →
    (t.updated = true ↔ t.fault = none ∧ (i = .cls ∨ ∃ x y rows, i = .drw x y rows))

/-! ## Timers and keypad (44_timer_keypad) -/

/-- FX07, FX15, FX18: the plain transfers between a register and a timer, nothing else changed (R182, R185, R186). -/
def Obligations.TimerTransfers : Prop :=
  ∀ (x : Reg) (s : State),
    (Instr.ldVxDt x).opRow = ⟨0xF007, 0xF0FF⟩ ∧ (Instr.ldDtVx x).opRow = ⟨0xF015, 0xF0FF⟩ ∧
    (Instr.ldStVx x).opRow = ⟨0xF018, 0xF0FF⟩ ∧
    Completes (.ldVxDt x) s (fun t => UnchangedExcept [.v] s t ∧
      ∀ r, t.getV r = if r = x then s.dt else s.getV r) ∧
    Completes (.ldDtVx x) s (fun t => t.dt = s.getV x ∧ UnchangedExcept [.dt] s t) ∧
    Completes (.ldStVx x) s (fun t => t.st = s.getV x ∧ t.soundActive = decide (s.getV x ≠ 0) ∧
      UnchangedExcept [.st] s t)

/-- EX9E and EXA1: pc + 2 modulo 2^16 exactly when x[X] is, and is not, the number of a pressed key; a value above 15 is no key; nothing else changed (R180, R181, R183). -/
def Obligations.KeySkipsFollowTheSnapshot : Prop :=
  ∀ (x : Reg) (s : State),
    (Instr.skp x).opRow = ⟨0xE09E, 0xF0FF⟩ ∧ (Instr.sknp x).opRow = ⟨0xE0A1, 0xF0FF⟩ ∧
    Completes (.skp x) s (fun t => UnchangedExcept [.pc] s t ∧
      ((∃ k : Fin 16, (s.getV x).toNat = k.val ∧ s.keys[k] = true) → t.pc.toNat = (s.pc.toNat + 2) % 65536) ∧
      ((¬ ∃ k : Fin 16, (s.getV x).toNat = k.val ∧ s.keys[k] = true) → t.pc = s.pc)) ∧
    Completes (.sknp x) s (fun t => UnchangedExcept [.pc] s t ∧
      ((∃ k : Fin 16, (s.getV x).toNat = k.val ∧ s.keys[k] = true) → t.pc = s.pc) ∧
      ((¬ ∃ k : Fin 16, (s.getV x).toNat = k.val ∧ s.keys[k] = true) → t.pc.toNat = (s.pc.toNat + 2) % 65536))

/-- FX0A: the least pressed key goes to x[X]; with no key pressed the pc goes back by 2 and nothing else changes (R184). -/
def Obligations.KeyWaitTakesTheLowestKey : Prop :=
  ∀ (x : Reg) (s : State), (Instr.ldVxK x).opRow = ⟨0xF00A, 0xF0FF⟩ ∧
    (∀ k : Fin 16, s.keys[k] = true → (∀ j : Fin 16, j < k → s.keys[j] = false) →
      Completes (.ldVxK x) s fun t => UnchangedExcept [.v] s t ∧
        ∀ r, (t.getV r).toNat = if r = x then k.val else (s.getV r).toNat) ∧
    ((∀ k : Fin 16, s.keys[k] = false) →
      Completes (.ldVxK x) s fun t => t.pc.toNat = (s.pc.toNat + 65534) % 65536 ∧ UnchangedExcept [.pc] s t)

/-- "`FX0A` with no key pressed leaves the program counter unchanged across repeated calls": the whole STEP leaves the core as it was, the latch clear (R184). -/
def Obligations.KeyWaitWithoutKeyLeavesTheCore : Prop :=
  ∀ (s : State) (keys : Keypad) (rnd : Byte) (x : Reg),
    s.nextIsStep keys rnd → s.fault = none → s.pc.toNat + 1 ≤ 0xFFF →
    decodeWord (s.wordAt s.pc.toNat) = some (.ldVxK x) → (∀ k : Fin 16, keys[k] = false) →
    ∃ t, step s = .next t ∧ SameCore s t ∧ t.fault = none ∧ t.updated = false

/-- TICK: each timer that is not zero is decremented by 1 on its own, 0 stays 0, nothing else changes; with the latch set nothing changes (R187, R190; the latch by the spec's decision D8). -/
def Obligations.TickDecrementsEachNonzeroTimer : Prop :=
  ∀ (s : State) (rest : List CallerOp), s.pending = .tick :: rest →
    ∃ t, step s = .next t ∧ t.pending = rest ∧ UnchangedExcept [.dt, .st, .rest] s t ∧
      (s.fault = none → t.dt.toNat = s.dt.toNat - 1 ∧ t.st.toNat = s.st.toNat - 1) ∧
      (s.fault ≠ none → t.dt = s.dt ∧ t.st = s.st)

/-- With ST = n and no further FX18, `sound_active` is true until the n-th following TICK and false after it; it is exactly ST != 0 (R39, R189). -/
def Obligations.SoundIsActiveUntilTheNthTick : Prop :=
  ∀ (m : Nat) (s : State), s.fault = none →
    (s.soundActive = true ↔ s.st.toNat ≠ 0) ∧
    ((State.tick^[m] s).soundActive = true ↔ m < s.st.toNat)

/-- A STEP never decrements a timer: DT changes only by FX15 and ST only by FX18 (R188, R190, 10 R29, R30). -/
def Obligations.StepsLeaveTheTimersToTheirWriters : Prop :=
  ∀ (i : Instr) (s t : State), exec i s = .next t →
    (t.dt ≠ s.dt → ∃ x, i = .ldDtVx x ∧ t.dt = s.getV x) ∧ (t.st ≠ s.st → ∃ x, i = .ldStVx x ∧ t.st = s.getV x)

/-- "Only EX9E, EXA1 and FX0A look at" the keys, only CXNN uses the random byte, and no instruction reads ST: any other instruction does the same under every snapshot, every byte and every value of ST (10 R36, R37, R30). -/
def Obligations.InputsAreSeenOnlyByTheirReaders : Prop :=
  ∀ (i : Instr) (s t : State) (k : Keypad) (b : Byte), exec i s = .next t →
    ((∀ x, i ≠ .skp x) → (∀ x, i ≠ .sknp x) → (∀ x, i ≠ .ldVxK x) →
      exec i { s with keys := k } = .next { t with keys := k }) ∧
    ((∀ x nn, i ≠ .rnd x nn) → exec i { s with rnd := b } = .next { t with rnd := b }) ∧
    ((∀ x, i ≠ .ldStVx x) → exec i { s with st := b } = .next { t with st := b })

/-! ## RESET and the end of a run (70_reset_and_hazards) -/

/-- RESET of a program of at most 3584 bytes: every piece of state at its reset value, the font at 0x050 to 0x09F, the program from 0x200, every other byte zero, the latch clear, sound inactive, whatever the state was before (R230, R232, 10 R41; the latch by the spec's decision D8). -/
def Obligations.ResetSetsEveryPiece : Prop :=
  ∀ (s : State) (program : List Byte) (rest : List CallerOp),
    s.pending = .reset program :: rest → program.length ≤ 3584 →
    ∃ t, step s = .next t ∧ t.pc = 0x0200 ∧ t.idx = 0 ∧ t.dt = 0 ∧ t.st = 0 ∧ t.stack = [] ∧ t.fault = none ∧
      t.soundActive = false ∧ t.loadError = none ∧ t.params = s.params ∧ t.pending = rest ∧
      (∀ r, t.getV r = 0) ∧ (∀ y x : Nat, t.fb.pixel y x = false) ∧
      (∀ k (h : k < program.length), t.readByte (0x200 + k) = program[k]) ∧
      (∀ (g : Fin 16) (j : Fin 5), t.readByte (0x050 + 5 * g.val + j.val) = s.params.font[g][j]) ∧
      (∀ a, a < 0x050 ∨ (0x09F < a ∧ a < 0x200) ∨ 0x200 + program.length ≤ a → t.readByte a = 0)

/-- RESET of a longer program reports ProgramTooLarge of its length and leaves the state, a set latch included, exactly as it was; on a core that holds no state there is still none (R231, 60 R207; the spec's decisions D18 and D20). -/
def Obligations.TooLargeProgramChangesNothing : Prop :=
  ∀ (program : List Byte), 3584 < program.length →
    (∀ (s : State) (rest : List CallerOp), s.pending = .reset program :: rest →
      step s = .next { s with pending := rest, loadError := some (.programTooLarge program.length) }) ∧
    ∀ p : Params, State.boot p program = .error (.programTooLarge program.length)

/-- What the state after reset is: pc 0x0200, every register, I, both timers zero, the stack empty, the display off, the latch clear; memory zero outside the font (10 R41, R20 to R35). -/
def Obligations.ResetStateIsAsStated : Prop :=
  State.reset.pc = 0x0200 ∧ State.reset.idx = 0 ∧ State.reset.dt = 0 ∧ State.reset.st = 0 ∧
  State.reset.stack = [] ∧ State.reset.fault = none ∧ (∀ r, State.reset.getV r = 0) ∧
  (∀ y x : Nat, State.reset.fb.pixel y x = false) ∧
  (∀ a, a < 0x050 ∨ 0x09F < a → State.reset.readByte a = 0) ∧
  State.boot State.reset.params [] = .ok State.reset

/-- A self-jump is a fixed point of STEP: at the idle end of a run the core stays as it is and stays idle (00_scope R12; the idle end is the spec's convention D15). -/
def Obligations.SelfJumpIsAFixedPoint : Prop :=
  ∀ (s : State) (keys : Keypad) (rnd : Byte), s.nextIsStep keys rnd → s.idle →
    ∃ t, step s = .next t ∧ SameCore s t ∧ t.idle ∧ t.updated = false
end

