-- ==== Sys2Proof/Laws/Display.lean ====
section
/-! SUPPORT. The laws of the display and of drawing: the loops of DXYN as one formula per pixel (43_display R172, R173). -/

namespace Sys2Proof.Machine

/-! ## Pixels -/

/-- A pixel set reads as set, and every other pixel as before. -/
theorem Display.pixel_setPixel (d : Display) (y x q p : Nat) (on : Bool) :
    (d.setPixel y x on).pixel q p =
      if q = y ∧ p = x ∧ y < 32 ∧ x < 64 then on else d.pixel q p := by
  unfold Display.setPixel Display.pixel
  by_cases hy : y < 32
  · simp only [hy, dif_pos]
    by_cases hqp : q < 32 ∧ p < 64
    · obtain ⟨hq, hp⟩ := hqp
      simp only [hq, hp, and_self, dif_pos]
      by_cases h : y = q
      · subst h
        simp only [Vector.getElem_set_self, Vector.getElem_setIfInBounds]
        by_cases hx : x = p
        · subst hx; simp [hp]
        · simp [hx, Ne.symm hx]
      · simp [h, Ne.symm h]
    · simp only [hqp, dif_neg, not_false_eq_true]
      rw [if_neg]
      rintro ⟨rfl, rfl, h⟩
      exact hqp ⟨hy, h.2⟩
  · simp [hy]

/-- The blank display has every pixel off. -/
@[simp] theorem Display.pixel_blank (q p : Nat) : Display.blank.pixel q p = false := by
  unfold Display.pixel Display.blank
  split <;> simp

/-! ## One sprite row -/

/-- Bit `k` from the left of a row of bits, off past its end. -/
def bitAt (bits : List Bool) (k : Nat) : Bool := bits[k]?.getD false

@[simp] theorem bitAt_nil (k : Nat) : bitAt [] k = false := rfl
@[simp] theorem bitAt_cons_zero (b : Bool) (bits : List Bool) : bitAt (b :: bits) 0 = b := rfl
@[simp] theorem bitAt_cons_succ (b : Bool) (bits : List Bool) (k : Nat) :
    bitAt (b :: bits) (k + 1) = bitAt bits k := rfl

/-- Bit `k` from the left of a sprite row is bit 7 - k of its byte (R171). -/
theorem bitAt_spriteBits (row : Byte) (k : Nat) :
    bitAt (spriteBits row) k = (decide (k < 8) && row.getLsbD (7 - k)) := by
  match k with
  | 0 | 1 | 2 | 3 | 4 | 5 | 6 | 7 => rfl
  | k + 8 => simp [spriteBits, bitAt]

/-- What the bits of a row, from column `x` on, say about position `p`. -/
def rowCovers (bits : List Bool) (x p : Nat) : Bool :=
  decide (x ≤ p) && decide (p < 64) && bitAt bits (p - x)

theorem rowCovers_cons (b : Bool) (bits : List Bool) (x p : Nat) :
    rowCovers (b :: bits) x p =
      if p = x then (decide (p < 64) && b) else rowCovers bits (x + 1) p := by
  unfold rowCovers
  by_cases hp : p = x
  · subst hp; simp
  · by_cases h : x + 1 ≤ p
    · obtain ⟨d, rfl⟩ := Nat.exists_eq_add_of_le h
      have e1 : x + 1 + d - x = d + 1 := by omega
      have e2 : x + 1 + d - (x + 1) = d := by omega
      have e3 : x ≤ x + 1 + d := by omega
      simp [hp, h, e1, e2, e3]
    · have h2 : ¬ x ≤ p := by omega
      simp [hp, h, h2]

theorem rowCovers_of_ge (bits : List Bool) (x p : Nat) (hx : 64 ≤ x) : rowCovers bits x p = false := by
  unfold rowCovers
  by_cases h : x ≤ p
  · have : ¬ p < 64 := by omega
    simp [this]
  · simp [h]

/-- Flipping a pixel of the display. -/
theorem Canvas.pixel_flip (c : Canvas) (y x q p : Nat) (hy : y < 32) (hx : x < 64) :
    (c.flip y x).fb.pixel q p = (c.fb.pixel q p ^^ decide (q = y ∧ p = x)) := by
  simp only [Canvas.flip, Display.pixel_setPixel, hy, hx, and_true]
  by_cases h : q = y ∧ p = x
  · obtain ⟨rfl, rfl⟩ := h; simp
  · simp [h]

/-- After a row is drawn, the pixels of that row the bits cover are inverted. -/
theorem Canvas.pixel_drawBits (bits : List Bool) : ∀ (c : Canvas) (y x q p : Nat), y < 32 →
    (c.drawBits y x bits).fb.pixel q p = (c.fb.pixel q p ^^ (decide (q = y) && rowCovers bits x p)) := by
  induction bits with
  | nil => intro c y x q p _; simp [Canvas.drawBits, rowCovers]
  | cons b bits ih =>
    intro c y x q p hy
    simp only [Canvas.drawBits]
    split
    · rename_i hx
      simp [rowCovers_of_ge _ x p hx]
    · rename_i hx
      rw [ih _ _ _ _ _ hy, rowCovers_cons]
      have hb : (if b = true then c.flip y x else c).fb.pixel q p =
          (c.fb.pixel q p ^^ (decide (q = y ∧ p = x) && b)) := by
        cases b
        · simp
        · simp [Canvas.pixel_flip c y x q p hy (by omega)]
      rw [hb]
      by_cases hp : p = x
      · subst hp
        have h64 : p < 64 := by omega
        have h0 : rowCovers bits (p + 1) p = false := by simp [rowCovers]
        simp [h0, h64]
      · simp [hp]

/-- After a row is drawn, there is a collision if there was one before or if a covered pixel was on. -/
theorem Canvas.hit_drawBits (bits : List Bool) : ∀ (c : Canvas) (y x : Nat), y < 32 →
    ((c.drawBits y x bits).hit = true ↔
      c.hit = true ∨ ∃ p, rowCovers bits x p = true ∧ c.fb.pixel y p = true) := by
  induction bits with
  | nil => intro c y x _; simp [Canvas.drawBits, rowCovers]
  | cons b bits ih =>
    intro c y x hy
    simp only [Canvas.drawBits]
    split
    · rename_i hx
      simp [rowCovers_of_ge _ x _ hx]
    · rename_i hx
      rw [ih _ _ _ hy]
      have hx : x < 64 := by omega
      have later : ∀ p, rowCovers bits (x + 1) p = true → p ≠ x := by
        intro p h e; subst e; simp [rowCovers] at h
      constructor
      · rintro (h | ⟨p, hp, hon⟩)
        · cases b
          · exact .inl (by simpa using h)
          · simp only [if_true, Canvas.flip, Bool.or_eq_true] at h
            rcases h with h | h
            · exact .inl h
            · exact .inr ⟨x, by simp [rowCovers_cons, hx], h⟩
        · refine .inr ⟨p, by simp [rowCovers_cons, later p hp, hp], ?_⟩
          cases b
          · simpa using hon
          · simpa [Canvas.pixel_flip c y x y p hy hx, later p hp] using hon
      · rintro (h | ⟨p, hp, hon⟩)
        · left
          cases b <;> simp [Canvas.flip, h]
        · rw [rowCovers_cons] at hp
          by_cases e : p = x
          · subst e
            simp only [if_true, Bool.and_eq_true] at hp
            left
            simp [hp.2, Canvas.flip, hon]
          · simp only [e, if_false] at hp
            refine .inr ⟨p, hp, ?_⟩
            cases b
            · simpa using hon
            · simpa [Canvas.pixel_flip c y x y p hy hx, e] using hon

/-! ## The whole sprite -/

/-- What the rows of a sprite, from (y, x) on, say about position (q, p): the bit of the sprite there, clipped at the edges. -/
def rowsCover (rows : List Byte) (y x q p : Nat) : Bool :=
  decide (y ≤ q) && decide (q < 32) && rowCovers (spriteBits (rows[q - y]?.getD 0)) x p

@[simp] theorem rowCovers_zero (x p : Nat) : rowCovers (spriteBits 0#8) x p = false := by
  simp [rowCovers, bitAt_spriteBits]

theorem rowsCover_cons (row : Byte) (rows : List Byte) (y x q p : Nat) :
    rowsCover (row :: rows) y x q p =
      if q = y then (decide (q < 32) && rowCovers (spriteBits row) x p) else rowsCover rows (y + 1) x q p := by
  unfold rowsCover
  by_cases hq : q = y
  · subst hq; simp
  · by_cases h : y + 1 ≤ q
    · obtain ⟨d, rfl⟩ := Nat.exists_eq_add_of_le h
      have e1 : y + 1 + d - y = d + 1 := by omega
      have e2 : y + 1 + d - (y + 1) = d := by omega
      have e3 : y ≤ y + 1 + d := by omega
      simp [hq, h, e1, e2, e3]
    · have h2 : ¬ y ≤ q := by omega
      simp [hq, h, h2]

theorem rowsCover_of_ge (rows : List Byte) (y x q p : Nat) (hy : 32 ≤ y) : rowsCover rows y x q p = false := by
  unfold rowsCover
  by_cases h : y ≤ q
  · have : ¬ q < 32 := by omega
    simp [this]
  · simp [h]

/-- The display after a sprite is drawn: the covered pixels inverted, every other pixel as it was (R173). -/
theorem Canvas.pixel_drawRows (rows : List Byte) : ∀ (c : Canvas) (y x q p : Nat),
    (c.drawRows y x rows).fb.pixel q p = (c.fb.pixel q p ^^ rowsCover rows y x q p) := by
  induction rows with
  | nil => intro c y x q p; simp [Canvas.drawRows, rowsCover]
  | cons row rows ih =>
    intro c y x q p
    simp only [Canvas.drawRows]
    split
    · rename_i hy
      simp [rowsCover_of_ge _ y x q p hy]
    · rename_i hy
      rw [ih, Canvas.pixel_drawBits _ _ _ _ _ _ (by omega), rowsCover_cons]
      by_cases hq : q = y
      · subst hq
        have h32 : q < 32 := by omega
        have h0 : rowsCover rows (q + 1) x q p = false := by simp [rowsCover]
        simp [h0, h32]
      · simp [hq]

/-- The collision flag after a sprite is drawn: some covered pixel was on (R173). -/
theorem Canvas.hit_drawRows (rows : List Byte) : ∀ (c : Canvas) (y x : Nat),
    ((c.drawRows y x rows).hit = true ↔
      c.hit = true ∨ ∃ q p, rowsCover rows y x q p = true ∧ c.fb.pixel q p = true) := by
  induction rows with
  | nil => intro c y x; simp [Canvas.drawRows, rowsCover]
  | cons row rows ih =>
    intro c y x
    simp only [Canvas.drawRows]
    split
    · rename_i hy
      simp [rowsCover_of_ge _ y x _ _ hy]
    · rename_i hy
      have hy : y < 32 := by omega
      rw [ih, Canvas.hit_drawBits _ _ _ _ hy]
      have later : ∀ q p, rowsCover rows (y + 1) x q p = true → q ≠ y := by
        intro q p h e; subst e; simp [rowsCover] at h
      constructor
      · rintro ((h | ⟨p, hp, hon⟩) | ⟨q, p, hqp, hon⟩)
        · exact .inl h
        · exact .inr ⟨y, p, by simp [rowsCover_cons, hy, hp], hon⟩
        · have e := later q p hqp
          refine .inr ⟨q, p, by simp [rowsCover_cons, e, hqp], ?_⟩
          simpa [Canvas.pixel_drawBits _ _ _ _ _ _ hy, e] using hon
      · rintro (h | ⟨q, p, hqp, hon⟩)
        · exact .inl (.inl h)
        · rw [rowsCover_cons] at hqp
          by_cases e : q = y
          · subst e
            simp only [if_true, Bool.and_eq_true] at hqp
            exact .inl (.inr ⟨p, hqp.2, hon⟩)
          · simp only [e, if_false] at hqp
            refine .inr ⟨q, p, hqp, ?_⟩
            simpa [Canvas.pixel_drawBits _ _ _ _ _ _ hy, e] using hon

end Sys2Proof.Machine
end

