-- ==== Sys2Proof/Laws/Encoding.lean ====
section
/-! SUPPORT. The fields of the three word layouts (30_encoding R71, R72), and what a word says through its fields. -/

namespace Sys2Proof

/-! ## A word as a number -/

theorem wordXYN_toNat (f x y n : BitVec 4) :
    (wordXYN f x y n).toNat = f.toNat * 4096 + x.toNat * 256 + y.toNat * 16 + n.toNat := by
  have hf := f.isLt; have hx := x.isLt; have hy := y.isLt; have hn := n.isLt
  unfold wordXYN
  rw [BitVec.toNat_append, BitVec.toNat_append, BitVec.toNat_append]
  rw [← Nat.shiftLeft_add_eq_or_of_lt (b := x.toNat) (by omega),
    ← Nat.shiftLeft_add_eq_or_of_lt (b := y.toNat) (by omega),
    ← Nat.shiftLeft_add_eq_or_of_lt (b := n.toNat) (by omega)]
  simp only [Nat.shiftLeft_eq]
  omega

theorem wordXNN_toNat (f x : BitVec 4) (nn : Byte) :
    (wordXNN f x nn).toNat = f.toNat * 4096 + x.toNat * 256 + nn.toNat := by
  have hf := f.isLt; have hx := x.isLt; have hn := nn.isLt
  unfold wordXNN
  rw [BitVec.toNat_append, BitVec.toNat_append]
  rw [← Nat.shiftLeft_add_eq_or_of_lt (b := x.toNat) (by omega),
    ← Nat.shiftLeft_add_eq_or_of_lt (b := nn.toNat) (by omega)]
  simp only [Nat.shiftLeft_eq]
  omega

theorem wordNNN_toNat (f : BitVec 4) (nnn : BitVec 12) :
    (wordNNN f nnn).toNat = f.toNat * 4096 + nnn.toNat := by
  have hf := f.isLt; have hn := nnn.isLt
  unfold wordNNN
  rw [BitVec.toNat_append, ← Nat.shiftLeft_add_eq_or_of_lt (b := nnn.toNat) (by omega)]
  simp only [Nat.shiftLeft_eq]

theorem joinBytes_toNat (hi lo : Byte) : (joinBytes hi lo).toNat = hi.toNat * 256 + lo.toNat := by
  have hh := hi.isLt; have hl := lo.isLt
  unfold joinBytes
  rw [BitVec.toNat_append, ← Nat.shiftLeft_add_eq_or_of_lt (b := lo.toNat) (by omega)]
  simp only [Nat.shiftLeft_eq]

/-! ## Fields as numbers -/

theorem fieldF_toNat (op : Word) : (fieldF op).toNat = op.toNat / 4096 := by
  have := op.isLt
  simp only [fieldF, BitVec.extractLsb'_toNat, Nat.shiftRight_eq_div_pow]
  omega

theorem fieldX_val (op : Word) : (fieldX op).val = op.toNat / 256 % 16 := by
  simp only [fieldX, BitVec.extractLsb'_toNat, Nat.shiftRight_eq_div_pow]

theorem fieldY_val (op : Word) : (fieldY op).val = op.toNat / 16 % 16 := by
  simp only [fieldY, BitVec.extractLsb'_toNat, Nat.shiftRight_eq_div_pow]

theorem fieldN_toNat (op : Word) : (fieldN op).toNat = op.toNat % 16 := by
  simp [fieldN, BitVec.extractLsb'_toNat]

theorem fieldNN_toNat (op : Word) : (fieldNN op).toNat = op.toNat % 256 := by
  simp [fieldNN, BitVec.extractLsb'_toNat]

theorem fieldNNN_toNat (op : Word) : (fieldNNN op).toNat = op.toNat % 4096 := by
  simp [fieldNNN, BitVec.extractLsb'_toNat]

theorem regBits_toNat (r : Reg) : (regBits r).toNat = r.val := by
  simp only [regBits, BitVec.toNat_ofNat]
  omega

/-! ## Each field of each layout -/

section
variable (f x y n : BitVec 4) (nn : Byte) (nnn : BitVec 12)

@[simp] theorem fieldF_wordXYN : fieldF (wordXYN f x y n) = f := by
  apply BitVec.eq_of_toNat_eq; rw [fieldF_toNat, wordXYN_toNat]; omega
@[simp] theorem fieldN_wordXYN : fieldN (wordXYN f x y n) = n := by
  apply BitVec.eq_of_toNat_eq; rw [fieldN_toNat, wordXYN_toNat]; omega
@[simp] theorem fieldF_wordXNN : fieldF (wordXNN f x nn) = f := by
  apply BitVec.eq_of_toNat_eq; rw [fieldF_toNat, wordXNN_toNat]; omega
@[simp] theorem fieldNN_wordXNN : fieldNN (wordXNN f x nn) = nn := by
  apply BitVec.eq_of_toNat_eq; rw [fieldNN_toNat, wordXNN_toNat]; omega
@[simp] theorem fieldF_wordNNN : fieldF (wordNNN f nnn) = f := by
  apply BitVec.eq_of_toNat_eq; rw [fieldF_toNat, wordNNN_toNat]; omega
@[simp] theorem fieldNNN_wordNNN : fieldNNN (wordNNN f nnn) = nnn := by
  apply BitVec.eq_of_toNat_eq; rw [fieldNNN_toNat, wordNNN_toNat]; omega

variable (r q : Reg)

@[simp] theorem fieldX_wordXYN : fieldX (wordXYN f (regBits r) y n) = r := by
  apply Fin.ext; rw [fieldX_val, wordXYN_toNat, regBits_toNat]; omega
@[simp] theorem fieldY_wordXYN : fieldY (wordXYN f x (regBits q) n) = q := by
  apply Fin.ext; rw [fieldY_val, wordXYN_toNat, regBits_toNat]; omega
@[simp] theorem fieldX_wordXNN : fieldX (wordXNN f (regBits r) nn) = r := by
  apply Fin.ext; rw [fieldX_val, wordXNN_toNat, regBits_toNat]; omega
/-- The X field read as a count (FX55, FX65). -/
@[simp] theorem fieldX_count (c : Nat) : (fieldX (wordXNN f (BitVec.ofNat 4 c) nn)).val = c % 16 := by
  rw [fieldX_val, wordXNN_toNat, BitVec.toNat_ofNat]; omega

end

/-! ## A word from its fields -/

/-- A word is what the layout F NNN makes of its fields. -/
theorem wordNNN_fields (op : Word) : wordNNN (fieldF op) (fieldNNN op) = op := by
  have := op.isLt
  apply BitVec.eq_of_toNat_eq
  rw [wordNNN_toNat, fieldF_toNat, fieldNNN_toNat]
  omega

/-- A word is what the layout F X NN makes of its fields. -/
theorem wordXNN_fields (op : Word) : wordXNN (fieldF op) (regBits (fieldX op)) (fieldNN op) = op := by
  have := op.isLt
  apply BitVec.eq_of_toNat_eq
  rw [wordXNN_toNat, fieldF_toNat, regBits_toNat, fieldX_val, fieldNN_toNat]
  omega

/-- A word is what the layout F X Y N makes of its fields. -/
theorem wordXYN_fields (op : Word) :
    wordXYN (fieldF op) (regBits (fieldX op)) (regBits (fieldY op)) (fieldN op) = op := by
  have := op.isLt
  apply BitVec.eq_of_toNat_eq
  rw [wordXYN_toNat, fieldF_toNat, regBits_toNat, regBits_toNat, fieldX_val, fieldY_val, fieldN_toNat]
  omega

/-- The two bytes of a word in memory order give the word back (20_memory R54). -/
@[simp] theorem joinBytes_split (op : Word) : joinBytes (op.extractLsb' 8 8) (op.extractLsb' 0 8) = op := by
  have := op.isLt
  apply BitVec.eq_of_toNat_eq
  rw [joinBytes_toNat]
  simp only [BitVec.extractLsb'_toNat, Nat.shiftRight_eq_div_pow]
  omega

/-- Decoding the bytes of a word is decoding the word. -/
theorem decode_splitWord (op : Word) (rest : List Byte) :
    decode (splitWord op ++ rest) =
      match decodeWord op with
      | some i => .ok (i, rest)
      | none => .error (.invalidInstruction op) := by
  cases h : decodeWord op <;> simp [splitWord, decode, h]

/-! ## Masks (30_encoding R76): each of the four masks keeps whole fields -/

theorem fieldF_and (a b : Word) : fieldF (a &&& b) = fieldF a &&& fieldF b := by simp [fieldF, BitVec.extractLsb'_and]
theorem fieldN_and (a b : Word) : fieldN (a &&& b) = fieldN a &&& fieldN b := by simp [fieldN, BitVec.extractLsb'_and]
theorem fieldNN_and (a b : Word) : fieldNN (a &&& b) = fieldNN a &&& fieldNN b := by simp [fieldNN, BitVec.extractLsb'_and]
theorem fieldNNN_and (a b : Word) : fieldNNN (a &&& b) = fieldNNN a &&& fieldNNN b := by simp [fieldNNN, BitVec.extractLsb'_and]

/-- Two words are equal when their leading nibbles and their low 12 bits are. -/
theorem word_ext (a b : Word) (h1 : fieldF a = fieldF b) (h2 : fieldNNN a = fieldNNN b) : a = b := by
  rw [← wordNNN_fields a, ← wordNNN_fields b, h1, h2]

/-- The mask of the formats A, I and D keeps the leading nibble. -/
theorem and_F000 (op : Word) : op &&& 0xF000 = wordNNN (fieldF op) 0 := by
  apply word_ext
  · rw [fieldF_and, fieldF_wordNNN, show fieldF 0xF000 = BitVec.allOnes 4 from by decide, BitVec.and_allOnes]
  · rw [fieldNNN_and, fieldNNN_wordNNN, show fieldNNN 0xF000 = 0 from by decide]
    exact BitVec.and_zero

/-- The mask of the format E keeps the whole word. -/
theorem and_FFFF (op : Word) : op &&& 0xFFFF = wordNNN (fieldF op) (fieldNNN op) := by
  rw [wordNNN_fields]
  exact BitVec.and_allOnes

/-- The mask of the format S keeps the leading nibble and NN. -/
theorem and_F0FF (op : Word) : op &&& 0xF0FF = wordXNN (fieldF op) 0 (fieldNN op) := by
  rw [← wordXNN_fields (op &&& 0xF0FF), fieldF_and, fieldNN_and,
    show fieldF 0xF0FF = BitVec.allOnes 4 from by decide, BitVec.and_allOnes,
    show fieldNN 0xF0FF = BitVec.allOnes 8 from by decide, BitVec.and_allOnes]
  congr 1
  apply BitVec.eq_of_toNat_eq
  rw [regBits_toNat]
  have : fieldX (op &&& 0xF0FF) = 0 := by
    apply Fin.ext
    simp [fieldX, BitVec.extractLsb'_and]
  rw [this]; rfl

/-- The mask of the format R keeps the leading nibble and N. -/
theorem and_F00F (op : Word) : op &&& 0xF00F = wordXYN (fieldF op) 0 0 (fieldN op) := by
  rw [← wordXYN_fields (op &&& 0xF00F), fieldF_and, fieldN_and,
    show fieldF 0xF00F = BitVec.allOnes 4 from by decide, BitVec.and_allOnes,
    show fieldN 0xF00F = BitVec.allOnes 4 from by decide, BitVec.and_allOnes]
  have hx : fieldX (op &&& 0xF00F) = 0 := by
    apply Fin.ext
    simp [fieldX, BitVec.extractLsb'_and]
  have hy : fieldY (op &&& 0xF00F) = 0 := by
    apply Fin.ext
    simp [fieldY, BitVec.extractLsb'_and]
  rw [hx, hy]; rfl

end Sys2Proof
end

