-- ==== Sys2Proof/Laws/Memory.lean ====
section
/-! SUPPORT. The laws of memory: what a write changes, that every operation keeps the canonical form, that the form is canonical. -/

namespace Sys2Proof.Machine

variable (f : Font)

/-! ## The list of cells -/

/-- An address below every listed one is not listed. -/
theorem Memory.lookup_none (m : Memory) (a : Nat) (h : ∀ c ∈ m, c.1 ≠ a) : Memory.lookup m a = none := by
  induction m with
  | nil => rfl
  | cons c m ih =>
    obtain ⟨k, b⟩ := c
    have hk : k ≠ a := h (k, b) (by simp)
    simp only [Memory.lookup, hk, if_false]
    exact ih fun c hc => h c (by simp [hc])

theorem Memory.lookup_put (m : Memory) (a q : Nat) (b : Byte) (hs : m.Pairwise (fun c d => c.1 < d.1)) :
    Memory.lookup (Memory.put m a b) q = if q = a then some b else Memory.lookup m q := by
  induction m with
  | nil => simp [Memory.put, Memory.lookup, eq_comm]
  | cons c m ih =>
    obtain ⟨k, d⟩ := c
    obtain ⟨hk, hs⟩ := List.pairwise_cons.mp hs
    simp only [Memory.put]
    split
    · simp only [Memory.lookup, eq_comm (a := a)]
    · split
      · rename_i h1 h2
        subst h2
        by_cases hq : q = a
        · simp [Memory.lookup, hq]
        · simp [Memory.lookup, hq, Ne.symm hq]
      · rename_i h1 h2
        simp only [Memory.lookup, ih hs]
        by_cases hq : k = q
        · have : q ≠ a := by omega
          simp [hq, this]
        · simp [hq]

theorem Memory.lookup_drop (m : Memory) (a q : Nat) (hs : m.Pairwise (fun c d => c.1 < d.1)) :
    Memory.lookup (Memory.drop m a) q = if q = a then none else Memory.lookup m q := by
  induction m with
  | nil => simp [Memory.drop, Memory.lookup]
  | cons c m ih =>
    obtain ⟨k, d⟩ := c
    obtain ⟨hk, hs⟩ := List.pairwise_cons.mp hs
    simp only [Memory.drop]
    split
    · rename_i h
      subst h
      by_cases hq : q = k
      · subst hq
        simp only [if_true]
        exact Memory.lookup_none m q fun c hc => by have := hk c hc; simp at this; omega
      · simp [Memory.lookup, hq, Ne.symm hq]
    · simp only [Memory.lookup, ih hs]
      by_cases hq : k = q
      · have : q ≠ a := by omega
        simp [hq, this]
      · simp [hq]

theorem Memory.mem_put (m : Memory) (a : Nat) (b : Byte) (c : Host.Cell) (h : c ∈ Memory.put m a b) :
    c = (a, b) ∨ c ∈ m := by
  induction m with
  | nil => simpa [Memory.put] using h
  | cons d m ih =>
    obtain ⟨k, e⟩ := d
    simp only [Memory.put] at h
    split at h
    · simpa using h
    · split at h
      · simp only [List.mem_cons] at h ⊢
        tauto
      · simp only [List.mem_cons] at h ⊢
        rcases h with h | h
        · tauto
        · rcases ih h with h | h <;> tauto

theorem Memory.mem_drop (m : Memory) (a : Nat) (c : Host.Cell) (h : c ∈ Memory.drop m a) : c ∈ m := by
  induction m with
  | nil => simp [Memory.drop] at h
  | cons d m ih =>
    obtain ⟨k, e⟩ := d
    simp only [Memory.drop] at h
    split at h
    · simp [h]
    · simp only [List.mem_cons] at h ⊢
      rcases h with h | h
      · exact .inl h
      · exact .inr (ih h)

theorem Memory.pairwise_put (m : Memory) (a : Nat) (b : Byte) (hs : m.Pairwise (fun c d => c.1 < d.1)) :
    (Memory.put m a b).Pairwise (fun c d => c.1 < d.1) := by
  induction m with
  | nil => simp [Memory.put]
  | cons c m ih =>
    obtain ⟨k, d⟩ := c
    obtain ⟨hk, hm⟩ := List.pairwise_cons.mp hs
    simp only [Memory.put]
    split
    · rename_i h
      refine List.pairwise_cons.mpr ⟨fun e he => ?_, hs⟩
      simp only [List.mem_cons] at he
      rcases he with rfl | he
      · exact h
      · have := hk e he; simp at this ⊢; omega
    · split
      · rename_i _ h
        exact List.pairwise_cons.mpr ⟨fun e he => by have := hk e he; simp at this ⊢; omega, hm⟩
      · refine List.pairwise_cons.mpr ⟨fun e he => ?_, ih hm⟩
        rcases Memory.mem_put m a b e he with rfl | he
        · simp; omega
        · exact hk e he

theorem Memory.pairwise_drop (m : Memory) (a : Nat) (hs : m.Pairwise (fun c d => c.1 < d.1)) :
    (Memory.drop m a).Pairwise (fun c d => c.1 < d.1) := by
  induction m with
  | nil => simp [Memory.drop]
  | cons c m ih =>
    obtain ⟨k, d⟩ := c
    obtain ⟨hk, hm⟩ := List.pairwise_cons.mp hs
    simp only [Memory.drop]
    split
    · exact hm
    · exact List.pairwise_cons.mpr ⟨fun e he => hk e (Memory.mem_drop m a e he), ih hm⟩

/-- The address dropped is no longer listed. -/
theorem Memory.ne_of_mem_drop (m : Memory) (a : Nat) (hs : m.Pairwise (fun c d => c.1 < d.1)) (c : Host.Cell)
    (h : c ∈ Memory.drop m a) : c.1 ≠ a := by
  induction m with
  | nil => simp [Memory.drop] at h
  | cons d m ih =>
    obtain ⟨k, e⟩ := d
    obtain ⟨hk, hm⟩ := List.pairwise_cons.mp hs
    simp only [Memory.drop] at h
    split at h
    · have := hk c h; simp at this; omega
    · simp only [List.mem_cons] at h
      rcases h with rfl | h
      · assumption
      · exact ih hm h

/-! ## Reads and writes -/

/-- A read after a write to the same address gives the byte written; every other address reads as before. -/
theorem Memory.read_write (m : Memory) (a q : Nat) (b : Byte) (hs : m.Pairwise (fun c d => c.1 < d.1)) :
    Memory.read f (Memory.write f m a b) q = if q = a then b else Memory.read f m q := by
  unfold Memory.read Memory.write
  split
  · rename_i h
    rw [Memory.lookup_drop m a q hs]
    by_cases hq : q = a <;> simp [hq, h]
  · rw [Memory.lookup_put m a q b hs]
    by_cases hq : q = a <;> simp [hq]

/-- A write inside memory keeps the canonical form. -/
theorem Memory.wf_write (m : Memory) (a : Nat) (b : Byte) (ha : a ≤ 0xFFF) (h : Memory.wf f m) :
    Memory.wf f (Memory.write f m a b) := by
  obtain ⟨hs, hc⟩ := h
  unfold Memory.write
  split
  · exact ⟨Memory.pairwise_drop m a hs, fun c hm => hc c (Memory.mem_drop m a c hm)⟩
  · rename_i hb
    refine ⟨Memory.pairwise_put m a b hs, fun c hm => ?_⟩
    rcases Memory.mem_put m a b c hm with rfl | hm
    · exact ⟨ha, hb⟩
    · exact hc c hm

/-- Whatever the address, the order of the list is kept. -/
theorem Memory.pairwise_write (m : Memory) (a : Nat) (b : Byte) (hs : m.Pairwise (fun c d => c.1 < d.1)) :
    (Memory.write f m a b).Pairwise (fun c d => c.1 < d.1) := by
  unfold Memory.write
  split
  · exact Memory.pairwise_drop m a hs
  · exact Memory.pairwise_put m a b hs

/-- After a store of several bytes, the byte at `a + k` is the k-th stored and every other address reads as before. -/
theorem Memory.read_writeBytes (bs : List Byte) : ∀ (m : Memory) (a q : Nat),
    m.Pairwise (fun c d => c.1 < d.1) →
    Memory.read f (Memory.writeBytes f m a bs) q =
      if a ≤ q then (bs[q - a]?).getD (Memory.read f m q) else Memory.read f m q := by
  induction bs with
  | nil => intro m a q _; simp [Memory.writeBytes]
  | cons b bs ih =>
    intro m a q hs
    simp only [Memory.writeBytes]
    rw [ih _ _ _ (Memory.pairwise_write f m a b hs), Memory.read_write f m a q b hs]
    by_cases h1 : a + 1 ≤ q
    · obtain ⟨d, rfl⟩ := Nat.exists_eq_add_of_le h1
      have e1 : a + 1 + d - (a + 1) = d := by omega
      have e2 : a + 1 + d - a = d + 1 := by omega
      have e3 : ¬ (a + 1 + d = a) := by omega
      have e4 : a ≤ a + 1 + d := by omega
      simp [h1, e1, e2, e3, e4]
    · by_cases h2 : q = a
      · subst h2; simp
      · have h3 : ¬ a ≤ q := by omega
        simp [h1, h2, h3]

/-- A store whose bytes all lie inside memory keeps the canonical form. -/
theorem Memory.wf_writeBytes (bs : List Byte) : ∀ (m : Memory) (a : Nat),
    a + bs.length ≤ 0x1000 → Memory.wf f m → Memory.wf f (Memory.writeBytes f m a bs) := by
  induction bs with
  | nil => intro m a _ h; exact h
  | cons b bs ih =>
    intro m a ha h
    simp only [List.length_cons] at ha
    exact ih _ _ (by omega) (Memory.wf_write f m a b (by omega) h)

theorem Memory.length_readBytes (m : Memory) (n : Nat) : ∀ a, (Memory.readBytes f m a n).length = n := by
  induction n with
  | zero => intro a; rfl
  | succ n ih => intro a; simp [Memory.readBytes, ih]

theorem Memory.getElem?_readBytes (m : Memory) (n : Nat) : ∀ a k : Nat,
    (Memory.readBytes f m a n)[k]? = if k < n then some (Memory.read f m (a + k)) else none := by
  induction n with
  | zero => intro a k; simp [Memory.readBytes]
  | succ n ih =>
    intro a k
    cases k with
    | zero => simp [Memory.readBytes]
    | succ k => simp [Memory.readBytes, ih, Nat.add_comm 1 k, Nat.add_assoc]

/-! ## The image RESET loads -/

theorem Memory.image_bounds (bs : List Byte) : ∀ a, ∀ c ∈ Memory.image f a bs,
    a ≤ c.1 ∧ c.1 < a + bs.length ∧ c.2 ≠ Memory.unlisted f c.1 := by
  induction bs with
  | nil => intro a c h; simp [Memory.image] at h
  | cons b bs ih =>
    intro a c h
    simp only [Memory.image] at h
    split at h
    · have := ih (a + 1) c h
      simp only [List.length_cons]
      exact ⟨by omega, by omega, this.2.2⟩
    · rename_i hb
      simp only [List.mem_cons] at h
      rcases h with rfl | h
      · simp [hb]
      · have := ih (a + 1) c h
        simp only [List.length_cons]
        exact ⟨by omega, by omega, this.2.2⟩

theorem Memory.pairwise_image (bs : List Byte) : ∀ a, (Memory.image f a bs).Pairwise (fun c d => c.1 < d.1) := by
  induction bs with
  | nil => intro a; simp [Memory.image]
  | cons b bs ih =>
    intro a
    simp only [Memory.image]
    split
    · exact ih (a + 1)
    · refine List.pairwise_cons.mpr ⟨fun c hc => ?_, ih (a + 1)⟩
      have := (Memory.image_bounds f bs (a + 1) c hc).1
      simp; omega

/-- The memory RESET makes has the canonical form. -/
theorem Memory.wf_image (a : Nat) (bs : List Byte) (h : a + bs.length ≤ 0x1000) : Memory.wf f (Memory.image f a bs) := by
  refine ⟨Memory.pairwise_image f bs a, fun c hc => ?_⟩
  have := Memory.image_bounds f bs a c hc
  exact ⟨by omega, this.2.2⟩

/-- What the memory RESET makes reads as: the program's bytes, and elsewhere the reset contents. -/
theorem Memory.read_image (bs : List Byte) : ∀ a q : Nat,
    Memory.read f (Memory.image f a bs) q =
      if a ≤ q then (bs[q - a]?).getD (Memory.unlisted f q) else Memory.unlisted f q := by
  induction bs with
  | nil => intro a q; simp [Memory.image, Memory.read, Memory.lookup]
  | cons b bs ih =>
    intro a q
    have step : Memory.read f (Memory.image f a (b :: bs)) q =
        if q = a then b else Memory.read f (Memory.image f (a + 1) bs) q := by
      simp only [Memory.image]
      split
      · rename_i hb
        by_cases hq : q = a
        · subst hq
          rw [ih]
          simp [← hb]
        · simp [hq]
      · simp only [Memory.read, Memory.lookup]
        by_cases hq : a = q <;> simp [hq, eq_comm]
    rw [step, ih]
    by_cases h1 : a + 1 ≤ q
    · obtain ⟨d, rfl⟩ := Nat.exists_eq_add_of_le h1
      have e1 : a + 1 + d - (a + 1) = d := by omega
      have e2 : a + 1 + d - a = d + 1 := by omega
      have e3 : ¬ (a + 1 + d = a) := by omega
      have e4 : a ≤ a + 1 + d := by omega
      simp [h1, e1, e2, e3, e4]
    · by_cases h2 : q = a
      · subst h2; simp
      · have h3 : ¬ a ≤ q := by omega
        simp [h1, h2, h3]

/-! ## The form is canonical -/

/-- In a canonical memory a listed byte is what the address reads as, and an unlisted address reads as its reset content: so the listed cells are exactly the addresses that read otherwise. -/
theorem Memory.lookup_eq (m : Memory) (a : Nat) (h : Memory.wf f m) :
    Memory.lookup m a = if Memory.read f m a = Memory.unlisted f a then none else some (Memory.read f m a) := by
  obtain ⟨_, hc⟩ := h
  unfold Memory.read
  induction m with
  | nil => simp [Memory.lookup]
  | cons c m ih =>
    obtain ⟨k, b⟩ := c
    simp only [Memory.lookup]
    by_cases hk : k = a
    · have hb : b ≠ Memory.unlisted f a := hk ▸ (hc (k, b) (by simp)).2
      simp [hk, hb]
    · rename_i hp
      simp only [hk, if_false]
      exact ih (List.pairwise_cons.mp hp).2 fun c hc' => hc c (by simp [hc'])

theorem Memory.lookup_head (k : Nat) (b : Byte) (m : Memory) : Memory.lookup ((k, b) :: m) k = some b := by
  simp [Memory.lookup]

/-- Two lists in rising order that list the same bytes are the same list. -/
theorem Memory.eq_of_lookup : ∀ (m n : Memory), m.Pairwise (fun c d => c.1 < d.1) →
    n.Pairwise (fun c d => c.1 < d.1) → (∀ a, Memory.lookup m a = Memory.lookup n a) → m = n := by
  intro m
  induction m with
  | nil =>
    intro n _ _ h
    cases n with
    | nil => rfl
    | cons c n => have := h c.1; simp [Memory.lookup] at this
  | cons c m ih =>
    intro n hm hn h
    obtain ⟨k, b⟩ := c
    cases n with
    | nil => have := h k; simp [Memory.lookup] at this
    | cons d n =>
      obtain ⟨j, e⟩ := d
      obtain ⟨hk, hm'⟩ := List.pairwise_cons.mp hm
      obtain ⟨hj, hn'⟩ := List.pairwise_cons.mp hn
      have below : ∀ (l : Memory) (p q : Nat), (∀ c ∈ l, p < c.1) → q ≤ p → Memory.lookup l q = none :=
        fun l p q hl hq => Memory.lookup_none l q fun c hc => by have := hl c hc; omega
      have hkj : k = j := by
        rcases Nat.lt_trichotomy k j with hlt | heq | hgt
        · have := h k
          rw [Memory.lookup_head, Memory.lookup, if_neg (by omega), below n j k hj (by omega)] at this
          simp at this
        · exact heq
        · have := h j
          rw [Memory.lookup_head, Memory.lookup, if_neg (by omega), below m k j hk (by omega)] at this
          simp at this
      subst hkj
      have hbe : b = e := by have := h k; simpa [Memory.lookup] using this
      subst hbe
      congr 1
      refine ih n hm' hn' fun a => ?_
      by_cases ha : a = k
      · subst ha
        rw [below m a a hk le_rfl, below n a a hj le_rfl]
      · have := h a
        simpa [Memory.lookup, Ne.symm ha] using this

end Sys2Proof.Machine
end

