-- ==== Sys2Proof/Laws/State.lean ====
section
/-! SUPPORT. One lemma per field per update of the state, true by rfl, so that no later proof unfolds a record update. -/

namespace Sys2Proof.Machine

variable (s : State)

@[simp] theorem State.setV_v (r : Reg) (b : Byte) : (s.setV r b).v = s.v.set r b := rfl
@[simp] theorem State.setV_pc (r : Reg) (b : Byte) : (s.setV r b).pc = s.pc := rfl
@[simp] theorem State.setV_idx (r : Reg) (b : Byte) : (s.setV r b).idx = s.idx := rfl
@[simp] theorem State.setV_stack (r : Reg) (b : Byte) : (s.setV r b).stack = s.stack := rfl
@[simp] theorem State.setV_dt (r : Reg) (b : Byte) : (s.setV r b).dt = s.dt := rfl
@[simp] theorem State.setV_st (r : Reg) (b : Byte) : (s.setV r b).st = s.st := rfl
@[simp] theorem State.setV_mem (r : Reg) (b : Byte) : (s.setV r b).mem = s.mem := rfl
@[simp] theorem State.setV_fb (r : Reg) (b : Byte) : (s.setV r b).fb = s.fb := rfl
@[simp] theorem State.setV_fault (r : Reg) (b : Byte) : (s.setV r b).fault = s.fault := rfl
@[simp] theorem State.setV_updated (r : Reg) (b : Byte) : (s.setV r b).updated = s.updated := rfl
@[simp] theorem State.setV_loadError (r : Reg) (b : Byte) : (s.setV r b).loadError = s.loadError := rfl
@[simp] theorem State.setV_keys (r : Reg) (b : Byte) : (s.setV r b).keys = s.keys := rfl
@[simp] theorem State.setV_rnd (r : Reg) (b : Byte) : (s.setV r b).rnd = s.rnd := rfl
@[simp] theorem State.setV_pending (r : Reg) (b : Byte) : (s.setV r b).pending = s.pending := rfl
@[simp] theorem State.setV_draws (r : Reg) (b : Byte) : (s.setV r b).draws = s.draws := rfl
@[simp] theorem State.setV_params (r : Reg) (b : Byte) : (s.setV r b).params = s.params := rfl

@[simp] theorem State.setFlag_v (b : Bool) : (s.setFlag b).v = s.v.set 15 (flagByte b) := rfl
@[simp] theorem State.setFlag_pc (b : Bool) : (s.setFlag b).pc = s.pc := rfl
@[simp] theorem State.setFlag_idx (b : Bool) : (s.setFlag b).idx = s.idx := rfl
@[simp] theorem State.setFlag_stack (b : Bool) : (s.setFlag b).stack = s.stack := rfl
@[simp] theorem State.setFlag_dt (b : Bool) : (s.setFlag b).dt = s.dt := rfl
@[simp] theorem State.setFlag_st (b : Bool) : (s.setFlag b).st = s.st := rfl
@[simp] theorem State.setFlag_mem (b : Bool) : (s.setFlag b).mem = s.mem := rfl
@[simp] theorem State.setFlag_fb (b : Bool) : (s.setFlag b).fb = s.fb := rfl
@[simp] theorem State.setFlag_fault (b : Bool) : (s.setFlag b).fault = s.fault := rfl
@[simp] theorem State.setFlag_updated (b : Bool) : (s.setFlag b).updated = s.updated := rfl
@[simp] theorem State.setFlag_loadError (b : Bool) : (s.setFlag b).loadError = s.loadError := rfl
@[simp] theorem State.setFlag_keys (b : Bool) : (s.setFlag b).keys = s.keys := rfl
@[simp] theorem State.setFlag_rnd (b : Bool) : (s.setFlag b).rnd = s.rnd := rfl
@[simp] theorem State.setFlag_pending (b : Bool) : (s.setFlag b).pending = s.pending := rfl
@[simp] theorem State.setFlag_draws (b : Bool) : (s.setFlag b).draws = s.draws := rfl
@[simp] theorem State.setFlag_params (b : Bool) : (s.setFlag b).params = s.params := rfl

@[simp] theorem State.setResult_v (x : Reg) (b : Byte) (f : Bool) : (s.setResult x b f).v = (s.v.set x b).set 15 (flagByte f) := rfl
@[simp] theorem State.setResult_pc (x : Reg) (b : Byte) (f : Bool) : (s.setResult x b f).pc = s.pc := rfl
@[simp] theorem State.setResult_idx (x : Reg) (b : Byte) (f : Bool) : (s.setResult x b f).idx = s.idx := rfl
@[simp] theorem State.setResult_stack (x : Reg) (b : Byte) (f : Bool) : (s.setResult x b f).stack = s.stack := rfl
@[simp] theorem State.setResult_dt (x : Reg) (b : Byte) (f : Bool) : (s.setResult x b f).dt = s.dt := rfl
@[simp] theorem State.setResult_st (x : Reg) (b : Byte) (f : Bool) : (s.setResult x b f).st = s.st := rfl
@[simp] theorem State.setResult_mem (x : Reg) (b : Byte) (f : Bool) : (s.setResult x b f).mem = s.mem := rfl
@[simp] theorem State.setResult_fb (x : Reg) (b : Byte) (f : Bool) : (s.setResult x b f).fb = s.fb := rfl
@[simp] theorem State.setResult_fault (x : Reg) (b : Byte) (f : Bool) : (s.setResult x b f).fault = s.fault := rfl
@[simp] theorem State.setResult_updated (x : Reg) (b : Byte) (f : Bool) : (s.setResult x b f).updated = s.updated := rfl
@[simp] theorem State.setResult_loadError (x : Reg) (b : Byte) (f : Bool) : (s.setResult x b f).loadError = s.loadError := rfl
@[simp] theorem State.setResult_keys (x : Reg) (b : Byte) (f : Bool) : (s.setResult x b f).keys = s.keys := rfl
@[simp] theorem State.setResult_rnd (x : Reg) (b : Byte) (f : Bool) : (s.setResult x b f).rnd = s.rnd := rfl
@[simp] theorem State.setResult_pending (x : Reg) (b : Byte) (f : Bool) : (s.setResult x b f).pending = s.pending := rfl
@[simp] theorem State.setResult_draws (x : Reg) (b : Byte) (f : Bool) : (s.setResult x b f).draws = s.draws := rfl
@[simp] theorem State.setResult_params (x : Reg) (b : Byte) (f : Bool) : (s.setResult x b f).params = s.params := rfl

@[simp] theorem State.jump_v (a : Word) : (s.jump a).v = s.v := rfl
@[simp] theorem State.jump_pc (a : Word) : (s.jump a).pc = a := rfl
@[simp] theorem State.jump_idx (a : Word) : (s.jump a).idx = s.idx := rfl
@[simp] theorem State.jump_stack (a : Word) : (s.jump a).stack = s.stack := rfl
@[simp] theorem State.jump_dt (a : Word) : (s.jump a).dt = s.dt := rfl
@[simp] theorem State.jump_st (a : Word) : (s.jump a).st = s.st := rfl
@[simp] theorem State.jump_mem (a : Word) : (s.jump a).mem = s.mem := rfl
@[simp] theorem State.jump_fb (a : Word) : (s.jump a).fb = s.fb := rfl
@[simp] theorem State.jump_fault (a : Word) : (s.jump a).fault = s.fault := rfl
@[simp] theorem State.jump_updated (a : Word) : (s.jump a).updated = s.updated := rfl
@[simp] theorem State.jump_loadError (a : Word) : (s.jump a).loadError = s.loadError := rfl
@[simp] theorem State.jump_keys (a : Word) : (s.jump a).keys = s.keys := rfl
@[simp] theorem State.jump_rnd (a : Word) : (s.jump a).rnd = s.rnd := rfl
@[simp] theorem State.jump_pending (a : Word) : (s.jump a).pending = s.pending := rfl
@[simp] theorem State.jump_draws (a : Word) : (s.jump a).draws = s.draws := rfl
@[simp] theorem State.jump_params (a : Word) : (s.jump a).params = s.params := rfl

@[simp] theorem State.advance_v : (s.advance).v = s.v := rfl
@[simp] theorem State.advance_pc : (s.advance).pc = s.pc + 2 := rfl
@[simp] theorem State.advance_idx : (s.advance).idx = s.idx := rfl
@[simp] theorem State.advance_stack : (s.advance).stack = s.stack := rfl
@[simp] theorem State.advance_dt : (s.advance).dt = s.dt := rfl
@[simp] theorem State.advance_st : (s.advance).st = s.st := rfl
@[simp] theorem State.advance_mem : (s.advance).mem = s.mem := rfl
@[simp] theorem State.advance_fb : (s.advance).fb = s.fb := rfl
@[simp] theorem State.advance_fault : (s.advance).fault = s.fault := rfl
@[simp] theorem State.advance_updated : (s.advance).updated = s.updated := rfl
@[simp] theorem State.advance_loadError : (s.advance).loadError = s.loadError := rfl
@[simp] theorem State.advance_keys : (s.advance).keys = s.keys := rfl
@[simp] theorem State.advance_rnd : (s.advance).rnd = s.rnd := rfl
@[simp] theorem State.advance_pending : (s.advance).pending = s.pending := rfl
@[simp] theorem State.advance_draws : (s.advance).draws = s.draws := rfl
@[simp] theorem State.advance_params : (s.advance).params = s.params := rfl

@[simp] theorem State.retreat_v : (s.retreat).v = s.v := rfl
@[simp] theorem State.retreat_pc : (s.retreat).pc = s.pc - 2 := rfl
@[simp] theorem State.retreat_idx : (s.retreat).idx = s.idx := rfl
@[simp] theorem State.retreat_stack : (s.retreat).stack = s.stack := rfl
@[simp] theorem State.retreat_dt : (s.retreat).dt = s.dt := rfl
@[simp] theorem State.retreat_st : (s.retreat).st = s.st := rfl
@[simp] theorem State.retreat_mem : (s.retreat).mem = s.mem := rfl
@[simp] theorem State.retreat_fb : (s.retreat).fb = s.fb := rfl
@[simp] theorem State.retreat_fault : (s.retreat).fault = s.fault := rfl
@[simp] theorem State.retreat_updated : (s.retreat).updated = s.updated := rfl
@[simp] theorem State.retreat_loadError : (s.retreat).loadError = s.loadError := rfl
@[simp] theorem State.retreat_keys : (s.retreat).keys = s.keys := rfl
@[simp] theorem State.retreat_rnd : (s.retreat).rnd = s.rnd := rfl
@[simp] theorem State.retreat_pending : (s.retreat).pending = s.pending := rfl
@[simp] theorem State.retreat_draws : (s.retreat).draws = s.draws := rfl
@[simp] theorem State.retreat_params : (s.retreat).params = s.params := rfl

@[simp] theorem State.push_v (a : Word) : (s.push a).v = s.v := rfl
@[simp] theorem State.push_pc (a : Word) : (s.push a).pc = s.pc := rfl
@[simp] theorem State.push_idx (a : Word) : (s.push a).idx = s.idx := rfl
@[simp] theorem State.push_stack (a : Word) : (s.push a).stack = a :: s.stack := rfl
@[simp] theorem State.push_dt (a : Word) : (s.push a).dt = s.dt := rfl
@[simp] theorem State.push_st (a : Word) : (s.push a).st = s.st := rfl
@[simp] theorem State.push_mem (a : Word) : (s.push a).mem = s.mem := rfl
@[simp] theorem State.push_fb (a : Word) : (s.push a).fb = s.fb := rfl
@[simp] theorem State.push_fault (a : Word) : (s.push a).fault = s.fault := rfl
@[simp] theorem State.push_updated (a : Word) : (s.push a).updated = s.updated := rfl
@[simp] theorem State.push_loadError (a : Word) : (s.push a).loadError = s.loadError := rfl
@[simp] theorem State.push_keys (a : Word) : (s.push a).keys = s.keys := rfl
@[simp] theorem State.push_rnd (a : Word) : (s.push a).rnd = s.rnd := rfl
@[simp] theorem State.push_pending (a : Word) : (s.push a).pending = s.pending := rfl
@[simp] theorem State.push_draws (a : Word) : (s.push a).draws = s.draws := rfl
@[simp] theorem State.push_params (a : Word) : (s.push a).params = s.params := rfl

@[simp] theorem State.raise_v (k : Fatal) : (s.raise k).v = s.v := rfl
@[simp] theorem State.raise_pc (k : Fatal) : (s.raise k).pc = s.pc - 2 := rfl
@[simp] theorem State.raise_idx (k : Fatal) : (s.raise k).idx = s.idx := rfl
@[simp] theorem State.raise_stack (k : Fatal) : (s.raise k).stack = s.stack := rfl
@[simp] theorem State.raise_dt (k : Fatal) : (s.raise k).dt = s.dt := rfl
@[simp] theorem State.raise_st (k : Fatal) : (s.raise k).st = s.st := rfl
@[simp] theorem State.raise_mem (k : Fatal) : (s.raise k).mem = s.mem := rfl
@[simp] theorem State.raise_fb (k : Fatal) : (s.raise k).fb = s.fb := rfl
@[simp] theorem State.raise_fault (k : Fatal) : (s.raise k).fault = some k := rfl
@[simp] theorem State.raise_updated (k : Fatal) : (s.raise k).updated = false := rfl
@[simp] theorem State.raise_loadError (k : Fatal) : (s.raise k).loadError = s.loadError := rfl
@[simp] theorem State.raise_keys (k : Fatal) : (s.raise k).keys = s.keys := rfl
@[simp] theorem State.raise_rnd (k : Fatal) : (s.raise k).rnd = s.rnd := rfl
@[simp] theorem State.raise_pending (k : Fatal) : (s.raise k).pending = s.pending := rfl
@[simp] theorem State.raise_draws (k : Fatal) : (s.raise k).draws = s.draws := rfl
@[simp] theorem State.raise_params (k : Fatal) : (s.raise k).params = s.params := rfl

@[simp] theorem State.storeBytes_v (a : Nat) (bs : List Byte) : (s.storeBytes a bs).v = s.v := rfl
@[simp] theorem State.storeBytes_pc (a : Nat) (bs : List Byte) : (s.storeBytes a bs).pc = s.pc := rfl
@[simp] theorem State.storeBytes_idx (a : Nat) (bs : List Byte) : (s.storeBytes a bs).idx = s.idx := rfl
@[simp] theorem State.storeBytes_stack (a : Nat) (bs : List Byte) : (s.storeBytes a bs).stack = s.stack := rfl
@[simp] theorem State.storeBytes_dt (a : Nat) (bs : List Byte) : (s.storeBytes a bs).dt = s.dt := rfl
@[simp] theorem State.storeBytes_st (a : Nat) (bs : List Byte) : (s.storeBytes a bs).st = s.st := rfl
@[simp] theorem State.storeBytes_mem (a : Nat) (bs : List Byte) : (s.storeBytes a bs).mem = Memory.writeBytes s.params.font s.mem a bs := rfl
@[simp] theorem State.storeBytes_fb (a : Nat) (bs : List Byte) : (s.storeBytes a bs).fb = s.fb := rfl
@[simp] theorem State.storeBytes_fault (a : Nat) (bs : List Byte) : (s.storeBytes a bs).fault = s.fault := rfl
@[simp] theorem State.storeBytes_updated (a : Nat) (bs : List Byte) : (s.storeBytes a bs).updated = s.updated := rfl
@[simp] theorem State.storeBytes_loadError (a : Nat) (bs : List Byte) : (s.storeBytes a bs).loadError = s.loadError := rfl
@[simp] theorem State.storeBytes_keys (a : Nat) (bs : List Byte) : (s.storeBytes a bs).keys = s.keys := rfl
@[simp] theorem State.storeBytes_rnd (a : Nat) (bs : List Byte) : (s.storeBytes a bs).rnd = s.rnd := rfl
@[simp] theorem State.storeBytes_pending (a : Nat) (bs : List Byte) : (s.storeBytes a bs).pending = s.pending := rfl
@[simp] theorem State.storeBytes_draws (a : Nat) (bs : List Byte) : (s.storeBytes a bs).draws = s.draws := rfl
@[simp] theorem State.storeBytes_params (a : Nat) (bs : List Byte) : (s.storeBytes a bs).params = s.params := rfl

@[simp] theorem State.begin_v (k : Keypad) (b : Byte) : (s.begin k b).v = s.v := rfl
@[simp] theorem State.begin_pc (k : Keypad) (b : Byte) : (s.begin k b).pc = s.pc + 2 := rfl
@[simp] theorem State.begin_idx (k : Keypad) (b : Byte) : (s.begin k b).idx = s.idx := rfl
@[simp] theorem State.begin_stack (k : Keypad) (b : Byte) : (s.begin k b).stack = s.stack := rfl
@[simp] theorem State.begin_dt (k : Keypad) (b : Byte) : (s.begin k b).dt = s.dt := rfl
@[simp] theorem State.begin_st (k : Keypad) (b : Byte) : (s.begin k b).st = s.st := rfl
@[simp] theorem State.begin_mem (k : Keypad) (b : Byte) : (s.begin k b).mem = s.mem := rfl
@[simp] theorem State.begin_fb (k : Keypad) (b : Byte) : (s.begin k b).fb = s.fb := rfl
@[simp] theorem State.begin_fault (k : Keypad) (b : Byte) : (s.begin k b).fault = s.fault := rfl
@[simp] theorem State.begin_updated (k : Keypad) (b : Byte) : (s.begin k b).updated = false := rfl
@[simp] theorem State.begin_loadError (k : Keypad) (b : Byte) : (s.begin k b).loadError = s.loadError := rfl
@[simp] theorem State.begin_keys (k : Keypad) (b : Byte) : (s.begin k b).keys = k := rfl
@[simp] theorem State.begin_rnd (k : Keypad) (b : Byte) : (s.begin k b).rnd = b := rfl
@[simp] theorem State.begin_pending (k : Keypad) (b : Byte) : (s.begin k b).pending = s.pending := rfl
@[simp] theorem State.begin_draws (k : Keypad) (b : Byte) : (s.begin k b).draws = s.draws := rfl
@[simp] theorem State.begin_params (k : Keypad) (b : Byte) : (s.begin k b).params = s.params := rfl

@[simp] theorem State.skipIf_v (c : Bool) : (s.skipIf c).v = s.v := by cases c <;> rfl
@[simp] theorem State.skipIf_idx (c : Bool) : (s.skipIf c).idx = s.idx := by cases c <;> rfl
@[simp] theorem State.skipIf_stack (c : Bool) : (s.skipIf c).stack = s.stack := by cases c <;> rfl
@[simp] theorem State.skipIf_dt (c : Bool) : (s.skipIf c).dt = s.dt := by cases c <;> rfl
@[simp] theorem State.skipIf_st (c : Bool) : (s.skipIf c).st = s.st := by cases c <;> rfl
@[simp] theorem State.skipIf_mem (c : Bool) : (s.skipIf c).mem = s.mem := by cases c <;> rfl
@[simp] theorem State.skipIf_fb (c : Bool) : (s.skipIf c).fb = s.fb := by cases c <;> rfl
@[simp] theorem State.skipIf_fault (c : Bool) : (s.skipIf c).fault = s.fault := by cases c <;> rfl
@[simp] theorem State.skipIf_updated (c : Bool) : (s.skipIf c).updated = s.updated := by cases c <;> rfl
@[simp] theorem State.skipIf_loadError (c : Bool) : (s.skipIf c).loadError = s.loadError := by cases c <;> rfl
@[simp] theorem State.skipIf_keys (c : Bool) : (s.skipIf c).keys = s.keys := by cases c <;> rfl
@[simp] theorem State.skipIf_rnd (c : Bool) : (s.skipIf c).rnd = s.rnd := by cases c <;> rfl
@[simp] theorem State.skipIf_pending (c : Bool) : (s.skipIf c).pending = s.pending := by cases c <;> rfl
@[simp] theorem State.skipIf_draws (c : Bool) : (s.skipIf c).draws = s.draws := by cases c <;> rfl
@[simp] theorem State.skipIf_params (c : Bool) : (s.skipIf c).params = s.params := by cases c <;> rfl
@[simp] theorem State.skipIf_pc (c : Bool) : (s.skipIf c).pc = if c then s.pc + 2 else s.pc := by cases c <;> rfl

/-! ## Reads of registers and memory after an update -/

/-- A register reads as written, and every other register as before. -/
theorem State.getV_setV (r q : Reg) (b : Byte) : (s.setV r b).getV q = if q = r then b else s.getV q := by
  unfold State.getV State.setV
  simp only [Fin.getElem_fin, Vector.getElem_set]
  by_cases h : q = r
  · simp [h]
  · simp [h, Fin.val_inj, Ne.symm h]

/-- The flag register reads as the flag written. -/
theorem State.getV_setFlag (q : Reg) (b : Bool) :
    (s.setFlag b).getV q = if q = regF then flagByte b else s.getV q := State.getV_setV s regF q _

/-- The flag is the last write: with X = 15 it replaces the result (R22, R127). -/
theorem State.getV_setResult (x q : Reg) (b : Byte) (f : Bool) :
    (s.setResult x b f).getV q = if q = regF then flagByte f else if q = x then b else s.getV q := by
  unfold State.setResult
  rw [State.getV_setFlag, State.getV_setV]

/-- A read of a register depends on the register file alone. -/
theorem State.getV_congr (t : State) (h : t.v = s.v) (r : Reg) : t.getV r = s.getV r := by
  unfold State.getV; rw [h]

/-- A read of memory depends on the memory and the font alone. -/
theorem State.readByte_congr (t : State) (hm : t.mem = s.mem) (hp : t.params = s.params) (a : Nat) :
    t.readByte a = s.readByte a := by
  unfold State.readByte; rw [hm, hp]

/-- The bit a flag byte stands for. -/
theorem flagByte_eq (b : Bool) : flagByte b = if b then 1 else 0 := rfl

end Sys2Proof.Machine
end

