-- ==== Sys2Proof/Laws/Ops.lean ====
section
/-! SUPPORT. One lemma per shared operation, saying once everything it can do. -/

namespace Sys2Proof.Machine

/-! ## Ranges (20_memory R57) -/

/-- An access is in range exactly when it touches no byte or its last byte is at most 0xFFF. -/
theorem outOfRange_eq_none (base n : Nat) : outOfRange base n = none ↔ n = 0 ∨ base + n ≤ 0x1000 := by
  unfold outOfRange Config.memSize
  split <;> simp_all

/-- Out of range, the lowest address above 0xFFF is reported. -/
theorem outOfRange_eq_some (base n a : Nat) :
    outOfRange base n = some a ↔ n ≠ 0 ∧ 0x1000 < base + n ∧ a = max base 0x1000 := by
  unfold outOfRange Config.memSize
  split
  · rename_i h; simp; omega
  · rename_i h
    simp only [Option.some.injEq]
    omega

/-- In range, an accessing instruction has its effect. -/
theorem State.accessing_in (s e : State) (n : Nat) (h : n = 0 ∨ s.dataBase + n ≤ 0x1000) :
    s.accessing n e = .next e := by
  unfold State.accessing
  rw [(outOfRange_eq_none _ _).mpr h]

/-- Out of range, it raises `AddressOutOfRange`. -/
theorem State.accessing_out (s e : State) (n : Nat) (h0 : n ≠ 0) (h : 0x1000 < s.dataBase + n) :
    s.accessing n e = .next (s.raise (.addressOutOfRange (max s.dataBase 0x1000))) := by
  unfold State.accessing
  rw [(outOfRange_eq_some _ _ _).mpr ⟨h0, h, rfl⟩]

/-- Everything an accessing instruction can do. -/
theorem State.accessing_cases (s e t : State) (n : Nat) (h : s.accessing n e = .next t) :
    (t = e ∧ (n = 0 ∨ s.dataBase + n ≤ 0x1000)) ∨
      (t = s.raise (.addressOutOfRange (max s.dataBase 0x1000)) ∧ 0x1000 < s.dataBase + n) := by
  by_cases hr : n = 0 ∨ s.dataBase + n ≤ 0x1000
  · rw [State.accessing_in s e n hr] at h
    exact .inl ⟨(Host.Outcome.next.inj h).symm, hr⟩
  · rw [State.accessing_out s e n (by omega) (by omega)] at h
    exact .inr ⟨(Host.Outcome.next.inj h).symm, by omega⟩

/-- The fetch, with the pc in range. -/
theorem State.fetch_ok (s : State) (h : s.pc.toNat + 1 ≤ 0xFFF) : s.fetch = .ok (s.wordAt s.pc.toNat) := by
  unfold State.fetch
  rw [(outOfRange_eq_none _ _).mpr (by omega)]

/-- The fetch, with the pc out of range. -/
theorem State.fetch_error (s : State) (h : 0xFFF < s.pc.toNat + 1) :
    s.fetch = .error (max s.pc.toNat 0x1000) := by
  unfold State.fetch
  rw [(outOfRange_eq_some _ _ _).mpr ⟨by omega, by omega, rfl⟩]

/-! ## Keys (44 R183, R184) -/

/-- A value is pressed when it is the number of a key that is. -/
theorem pressed_iff (keys : Keypad) (b : Byte) :
    pressed keys b = true ↔ ∃ k : Fin 16, b.toNat = k.val ∧ keys[k] = true := by
  unfold pressed
  split
  · rename_i h
    constructor
    · intro hk; exact ⟨⟨b.toNat, h⟩, rfl, hk⟩
    · rintro ⟨k, hk, hon⟩
      have : (⟨b.toNat, h⟩ : Fin 16) = k := Fin.ext hk
      subst this; exact hon
  · rename_i h
    simp only [Bool.false_eq_true, false_iff]
    rintro ⟨k, hk, _⟩
    omega

theorem lowestPressed_none (keys : Keypad) (h : ∀ k : Fin 16, keys[k] = false) : lowestPressed keys = none := by
  unfold lowestPressed
  rw [List.findIdx?_eq_none_iff]
  intro b hb
  obtain ⟨k, hk, rfl⟩ := List.mem_iff_getElem.mp hb
  simp only [Vector.length_toList] at hk
  simpa using h ⟨k, hk⟩

theorem lowestPressed_some (keys : Keypad) (k : Fin 16) (hk : keys[k] = true)
    (hlow : ∀ j : Fin 16, j < k → keys[j] = false) : lowestPressed keys = some k.val := by
  unfold lowestPressed
  rw [List.findIdx?_eq_some_iff_getElem]
  refine ⟨by simp, by simpa using hk, fun j hj => ?_⟩
  have := hlow ⟨j, by omega⟩ (by simpa [Fin.lt_def] using hj)
  simpa using this

/-- What the search can answer. -/
theorem lowestPressed_cases (keys : Keypad) :
    (lowestPressed keys = none ∧ ∀ k : Fin 16, keys[k] = false) ∨
      ∃ k : Fin 16, lowestPressed keys = some k.val ∧ keys[k] = true ∧ ∀ j : Fin 16, j < k → keys[j] = false := by
  by_cases h : ∃ k : Fin 16, keys[k] = true
  · right
    obtain ⟨k, hk, hmin⟩ := WellFounded.has_min (wellFounded_lt (α := Fin 16)) {k | keys[k] = true} h
    have hlow : ∀ j : Fin 16, j < k → keys[j] = false := by
      intro j hj
      by_contra hc
      exact hmin j (by simpa using hc) hj
    exact ⟨k, lowestPressed_some keys k hk hlow, hk, hlow⟩
  · left
    have hall : ∀ k : Fin 16, keys[k] = false := by
      intro k
      by_contra hc
      exact h ⟨k, by simpa using hc⟩
    exact ⟨lowestPressed_none keys hall, hall⟩

/-! ## Loading a block of registers (42 R155) -/

theorem Regs.getElem_load (bs : List Byte) : ∀ (v : Regs) (k : Nat) (r : Reg),
    (Regs.load v k bs)[r] = if k ≤ r.val then (bs[r.val - k]?).getD v[r] else v[r] := by
  induction bs with
  | nil => intro v k r; simp [Regs.load]
  | cons b bs ih =>
    intro v k r
    simp only [Regs.load]
    rw [ih]
    by_cases h1 : k + 1 ≤ r.val
    · obtain ⟨d, hd⟩ := Nat.exists_eq_add_of_le h1
      have e1 : r.val - (k + 1) = d := by omega
      have e2 : r.val - k = d + 1 := by omega
      have e3 : k ≤ r.val := by omega
      have e4 : ¬ k = r.val := by omega
      simp [h1, e1, e2, e3, e4]
    · by_cases h2 : k = r.val
      · subst h2; simp
      · have h3 : ¬ k ≤ r.val := by omega
        simp [h1, h2, h3]

/-! ## Taking a fatal condition (60 R205) -/

/-- Raised from the advanced pc, the pc is the offending instruction's again. -/
theorem State.raise_pc_of_advanced (s : State) (k : Fatal) (pc0 : Word) (h : s.pc = pc0 + 2) :
    (s.raise k).pc = pc0 := by
  simp [h]

/-! ## TICK (44 R187) -/

theorem tickDown_toNat (b : Byte) : (tickDown b).toNat = b.toNat - 1 := by
  unfold tickDown
  have hb := b.isLt
  split
  · rename_i h; simp [h]
  · rename_i h
    have : b.toNat ≠ 0 := fun e => h (BitVec.eq_of_toNat_eq (by simpa using e))
    rw [BitVec.toNat_sub]
    simp
    omega

theorem State.tick_running (s : State) (h : s.fault = none) :
    s.tick = { s with dt := tickDown s.dt, st := tickDown s.st } := by
  unfold State.tick; rw [if_pos h]

theorem State.tick_latched (s : State) (h : s.fault ≠ none) : s.tick = s := by
  unfold State.tick; rw [if_neg h]

/-! ## RESET (70 R230, R231) -/

theorem State.boot_ok (p : Params) (program : List Byte) (h : program.length ≤ 3584) :
    State.boot p program = .ok { State.reset with params := p, mem := Memory.image p.font 0x200 program } := by
  unfold State.boot
  rw [if_neg (by simpa using h)]

theorem State.boot_error (p : Params) (program : List Byte) (h : 3584 < program.length) :
    State.boot p program = .error (.programTooLarge program.length) := by
  unfold State.boot
  rw [if_pos h]

theorem State.load_ok (s : State) (program : List Byte) (h : program.length ≤ 3584) :
    s.load program =
      { State.reset with params := s.params, mem := Memory.image s.params.font 0x200 program, pending := s.pending, draws := s.draws } := by
  unfold State.load
  rw [State.boot_ok s.params program h]

theorem State.load_error (s : State) (program : List Byte) (h : 3584 < program.length) :
    s.load program = { s with loadError := some (.programTooLarge program.length) } := by
  unfold State.load
  rw [State.boot_error s.params program h]

/-! ## Return from a subroutine (40 R100) -/

theorem execRet_empty (s : State) (h : s.stack = []) : execRet s = .next (s.raise .emptyStackReturn) := by
  unfold execRet; rw [h]

theorem execRet_pop (s : State) (a : Word) (rest : List Word) (h : s.stack = a :: rest) :
    execRet s = .next ({ s with stack := rest }.jump a) := by
  unfold execRet; rw [h]

/-! ## What an instruction can do -/

/-- Every instruction answers a next state. -/
theorem exec_next (i : Instr) (s : State) : ∃ t, exec i s = .next t := by
  have acc : ∀ (n : Nat) (e : State), ∃ t, s.accessing n e = .next t := by
    intro n e
    unfold State.accessing
    split
    · exact ⟨_, rfl⟩
    · exact ⟨_, rfl⟩
  cases i with
  | ret => simp only [exec, execRet]; split <;> exact ⟨_, rfl⟩
  | ldF x => simp only [exec, execLdF]; split <;> exact ⟨_, rfl⟩
  | ldB x => exact acc _ _
  | stRegs last => exact acc _ _
  | ldRegs last => exact acc _ _
  | drw x y rows => exact acc _ _
  | _ => exact ⟨_, rfl⟩

end Sys2Proof.Machine
end

