-- ==== Sys2Proof/Laws/PerInstr.lean ====
section
/-! SUPPORT. Per instruction: the decoder reads from the encoder's word the instruction that was encoded (30_encoding R74, R76). -/

set_option Elab.async false

namespace Sys2Proof.Laws

/-- Decoding the word of a well-formed instruction gives it back. -/
def RoundTrip.Statement (i : Instr) : Prop := i.wf → decodeWord (encode i) = some i

theorem RoundTrip.cls : RoundTrip.Statement .cls := by
  intro _; simp [encode, decodeWord, decodeFamily0]

theorem RoundTrip.ret : RoundTrip.Statement .ret := by
  intro _; simp [encode, decodeWord, decodeFamily0]

theorem RoundTrip.jp (nnn : BitVec 12) : RoundTrip.Statement (.jp nnn) := by
  intro _; simp [encode, decodeWord]

theorem RoundTrip.call (nnn : BitVec 12) : RoundTrip.Statement (.call nnn) := by
  intro _; simp [encode, decodeWord]

theorem RoundTrip.seImm (x : Reg) (nn : Byte) : RoundTrip.Statement (.seImm x nn) := by
  intro _; simp [encode, decodeWord]

theorem RoundTrip.sneImm (x : Reg) (nn : Byte) : RoundTrip.Statement (.sneImm x nn) := by
  intro _; simp [encode, decodeWord]

theorem RoundTrip.seReg (x : Reg) (y : Reg) : RoundTrip.Statement (.seReg x y) := by
  intro _; simp [encode, decodeWord, decodeFamily5]

theorem RoundTrip.ldImm (x : Reg) (nn : Byte) : RoundTrip.Statement (.ldImm x nn) := by
  intro _; simp [encode, decodeWord]

theorem RoundTrip.addImm (x : Reg) (nn : Byte) : RoundTrip.Statement (.addImm x nn) := by
  intro _; simp [encode, decodeWord]

theorem RoundTrip.ldReg (x : Reg) (y : Reg) : RoundTrip.Statement (.ldReg x y) := by
  intro _; simp [encode, decodeWord, decodeFamily8]

theorem RoundTrip.or (x : Reg) (y : Reg) : RoundTrip.Statement (.or x y) := by
  intro _; simp [encode, decodeWord, decodeFamily8]

theorem RoundTrip.and (x : Reg) (y : Reg) : RoundTrip.Statement (.and x y) := by
  intro _; simp [encode, decodeWord, decodeFamily8]

theorem RoundTrip.xor (x : Reg) (y : Reg) : RoundTrip.Statement (.xor x y) := by
  intro _; simp [encode, decodeWord, decodeFamily8]

theorem RoundTrip.addReg (x : Reg) (y : Reg) : RoundTrip.Statement (.addReg x y) := by
  intro _; simp [encode, decodeWord, decodeFamily8]

theorem RoundTrip.sub (x : Reg) (y : Reg) : RoundTrip.Statement (.sub x y) := by
  intro _; simp [encode, decodeWord, decodeFamily8]

theorem RoundTrip.shr (x : Reg) (y : Reg) : RoundTrip.Statement (.shr x y) := by
  intro _; simp [encode, decodeWord, decodeFamily8]

theorem RoundTrip.subn (x : Reg) (y : Reg) : RoundTrip.Statement (.subn x y) := by
  intro _; simp [encode, decodeWord, decodeFamily8]

theorem RoundTrip.shl (x : Reg) (y : Reg) : RoundTrip.Statement (.shl x y) := by
  intro _; simp [encode, decodeWord, decodeFamily8]

theorem RoundTrip.sneReg (x : Reg) (y : Reg) : RoundTrip.Statement (.sneReg x y) := by
  intro _; simp [encode, decodeWord, decodeFamily9]

theorem RoundTrip.ldI (nnn : BitVec 12) : RoundTrip.Statement (.ldI nnn) := by
  intro _; simp [encode, decodeWord]

theorem RoundTrip.jpV0 (nnn : BitVec 12) : RoundTrip.Statement (.jpV0 nnn) := by
  intro _; simp [encode, decodeWord]

theorem RoundTrip.rnd (x : Reg) (nn : Byte) : RoundTrip.Statement (.rnd x nn) := by
  intro _; simp [encode, decodeWord]

theorem RoundTrip.drw (x : Reg) (y : Reg) (rows : Nat) : RoundTrip.Statement (.drw x y rows) := by
  intro h
  simp [encode, decodeWord, Nat.mod_eq_of_lt (show rows < 16 from h)]

theorem RoundTrip.skp (x : Reg) : RoundTrip.Statement (.skp x) := by
  intro _; simp [encode, decodeWord, decodeFamilyE]

theorem RoundTrip.sknp (x : Reg) : RoundTrip.Statement (.sknp x) := by
  intro _; simp [encode, decodeWord, decodeFamilyE]

theorem RoundTrip.ldVxDt (x : Reg) : RoundTrip.Statement (.ldVxDt x) := by
  intro _; simp [encode, decodeWord, decodeFamilyF]

theorem RoundTrip.ldVxK (x : Reg) : RoundTrip.Statement (.ldVxK x) := by
  intro _; simp [encode, decodeWord, decodeFamilyF]

theorem RoundTrip.ldDtVx (x : Reg) : RoundTrip.Statement (.ldDtVx x) := by
  intro _; simp [encode, decodeWord, decodeFamilyF]

theorem RoundTrip.ldStVx (x : Reg) : RoundTrip.Statement (.ldStVx x) := by
  intro _; simp [encode, decodeWord, decodeFamilyF]

theorem RoundTrip.addI (x : Reg) : RoundTrip.Statement (.addI x) := by
  intro _; simp [encode, decodeWord, decodeFamilyF]

theorem RoundTrip.ldF (x : Reg) : RoundTrip.Statement (.ldF x) := by
  intro _; simp [encode, decodeWord, decodeFamilyF]

theorem RoundTrip.ldB (x : Reg) : RoundTrip.Statement (.ldB x) := by
  intro _; simp [encode, decodeWord, decodeFamilyF]

theorem RoundTrip.stRegs (last : Nat) : RoundTrip.Statement (.stRegs last) := by
  intro h
  simp [encode, decodeWord, decodeFamilyF, Nat.mod_eq_of_lt (show last < 16 from h)]

theorem RoundTrip.ldRegs (last : Nat) : RoundTrip.Statement (.ldRegs last) := by
  intro h
  simp [encode, decodeWord, decodeFamilyF, Nat.mod_eq_of_lt (show last < 16 from h)]

end Sys2Proof.Laws
end

