-- ==== Sys2Proof/Laws/Step.lean ====
section
/-! SUPPORT. What one instruction and one step can do, said once. -/

namespace Sys2Proof.Machine

/-! ## An instruction -/

/-- The conditions an instruction raises are sound: what the latch records fits the condition. -/
theorem exec_cases (i : Instr) (s t : State) (h : exec i s = .next t) :
    (∃ k, t = s.raise k ∧ k.sound) ∨
      (t.fault = s.fault ∧ t.params = s.params ∧ t.pending = s.pending ∧ t.draws = s.draws ∧
        t.keys = s.keys ∧ t.rnd = s.rnd ∧ t.loadError = s.loadError) := by
  have acc : ∀ (n : Nat) (e : State), s.accessing n e = .next t →
      (e.fault = s.fault ∧ e.params = s.params ∧ e.pending = s.pending ∧ e.draws = s.draws ∧
        e.keys = s.keys ∧ e.rnd = s.rnd ∧ e.loadError = s.loadError) →
      (∃ k, t = s.raise k ∧ k.sound) ∨
      (t.fault = s.fault ∧ t.params = s.params ∧ t.pending = s.pending ∧ t.draws = s.draws ∧
        t.keys = s.keys ∧ t.rnd = s.rnd ∧ t.loadError = s.loadError) := by
    intro n e he hk
    rcases State.accessing_cases s e t n he with ⟨rfl, _⟩ | ⟨rfl, _⟩
    · exact .inr hk
    · refine .inl ⟨_, rfl, ?_⟩
      have : s.dataBase < 0x10000 := s.idx.isLt
      simp only [Fatal.sound]
      omega
  cases i with
  | ret =>
    simp only [exec, execRet] at h
    split at h <;> cases h
    · exact .inl ⟨_, rfl, trivial⟩
    · exact .inr ⟨rfl, rfl, rfl, rfl, rfl, rfl, rfl⟩
  | ldF x =>
    simp only [exec, execLdF] at h
    split at h <;> cases h
    · rename_i hv
      exact .inl ⟨_, rfl, by simp only [Fatal.sound]; omega⟩
    · exact .inr ⟨rfl, rfl, rfl, rfl, rfl, rfl, rfl⟩
  | ldB x => exact acc _ _ h ⟨rfl, rfl, rfl, rfl, rfl, rfl, rfl⟩
  | stRegs last => exact acc _ _ h ⟨rfl, rfl, rfl, rfl, rfl, rfl, rfl⟩
  | ldRegs last => exact acc _ _ h ⟨rfl, rfl, rfl, rfl, rfl, rfl, rfl⟩
  | drw x y rows => exact acc _ _ h ⟨rfl, rfl, rfl, rfl, rfl, rfl, rfl⟩
  | ldVxK x =>
    simp only [exec, execLdVxK] at h
    cases h
    right
    split <;> exact ⟨rfl, rfl, rfl, rfl, rfl, rfl, rfl⟩
  | _ => cases h; exact .inr (by simp)

/-! ## The queue (log 2, log 3) -/

/-- A STEP that comes next, with the latch clear. -/
theorem step_of_nextIsStep (s : State) (keys : Keypad) (rnd : Byte) (h : s.nextIsStep keys rnd) :
    step s = s.dequeue.runStep keys rnd := by
  rcases h with ⟨rest, hp⟩ | ⟨hp, hk, hr⟩
  · simp only [step, State.cycle, State.dequeue, hp]
  · subst hk hr
    simp only [step, State.cycle, State.dequeue, hp]

/-- Taking an operation from the queue changes the queue and the counter alone. -/
theorem State.dequeue_frame (s : State) :
    s.dequeue.v = s.v ∧ s.dequeue.pc = s.pc ∧ s.dequeue.idx = s.idx ∧ s.dequeue.stack = s.stack ∧
      s.dequeue.dt = s.dt ∧ s.dequeue.st = s.st ∧ s.dequeue.mem = s.mem ∧ s.dequeue.fb = s.fb ∧
      s.dequeue.fault = s.fault ∧ s.dequeue.updated = s.updated ∧ s.dequeue.loadError = s.loadError ∧
      s.dequeue.params = s.params ∧ s.dequeue.pending = s.pending.tail := by
  unfold State.dequeue
  split
  · rename_i hp; simp [hp]
  · rename_i hp; simp [hp]

/-! ## A STEP -/

/-- With the latch clear, the fetch in range and a word that decodes. -/
theorem State.runStep_ok (s : State) (keys : Keypad) (rnd : Byte) (i : Instr) (hf : s.fault = none)
    (hpc : s.pc.toNat + 1 ≤ 0xFFF) (hd : decodeWord (s.wordAt s.pc.toNat) = some i) :
    s.runStep keys rnd = exec i (s.begin keys rnd) := by
  unfold State.runStep
  rw [if_pos hf, State.fetch_ok s hpc]
  simp only [State.runWord, hd]

/-- With the latch clear, the fetch in range and a word that does not decode. -/
theorem State.runStep_invalid (s : State) (keys : Keypad) (rnd : Byte) (hf : s.fault = none)
    (hpc : s.pc.toNat + 1 ≤ 0xFFF) (hd : decodeWord (s.wordAt s.pc.toNat) = none) :
    s.runStep keys rnd = .next ((s.begin keys rnd).raise (.invalidInstruction (s.wordAt s.pc.toNat))) := by
  unfold State.runStep
  rw [if_pos hf, State.fetch_ok s hpc]
  simp only [State.runWord, hd]

/-- With the latch clear and the fetch out of range. -/
theorem State.runStep_fetch (s : State) (keys : Keypad) (rnd : Byte) (hf : s.fault = none)
    (hpc : 0xFFF < s.pc.toNat + 1) :
    s.runStep keys rnd = .next ((s.begin keys rnd).raise (.addressOutOfRange (max s.pc.toNat 0x1000))) := by
  unfold State.runStep
  rw [if_pos hf, State.fetch_error s hpc]

/-- With the latch set. -/
theorem State.runStep_latched (s : State) (keys : Keypad) (rnd : Byte) (hf : s.fault ≠ none) :
    s.runStep keys rnd = .next { s with updated := false } := by
  unfold State.runStep
  rw [if_neg hf]

/-- Everything a STEP can do. -/
theorem State.runStep_cases (s t : State) (keys : Keypad) (rnd : Byte) (h : s.runStep keys rnd = .next t) :
    (s.fault ≠ none ∧ t = { s with updated := false }) ∨
    (s.fault = none ∧ ∃ k, t = (s.begin keys rnd).raise k ∧ k.sound) ∨
    (s.fault = none ∧ s.pc.toNat + 1 ≤ 0xFFF ∧ ∃ i, decodeWord (s.wordAt s.pc.toNat) = some i ∧
      exec i (s.begin keys rnd) = .next t) := by
  by_cases hf : s.fault = none
  · right
    by_cases hpc : s.pc.toNat + 1 ≤ 0xFFF
    · cases hd : decodeWord (s.wordAt s.pc.toNat) with
      | none =>
        rw [State.runStep_invalid s keys rnd hf hpc hd] at h
        exact .inl ⟨hf, _, (Host.Outcome.next.inj h).symm, hd⟩
      | some i =>
        rw [State.runStep_ok s keys rnd i hf hpc hd] at h
        exact .inr ⟨hf, hpc, i, rfl, h⟩
    · rw [State.runStep_fetch s keys rnd hf (by omega)] at h
      have := s.pc.isLt
      exact .inl ⟨hf, _, (Host.Outcome.next.inj h).symm, by simp only [Fatal.sound]; omega⟩
  · rw [State.runStep_latched s keys rnd hf] at h
    exact .inl ⟨hf, (Host.Outcome.next.inj h).symm⟩

/-! ## A step -/

/-- Everything a step can do: a STEP on the state whose queue or counter has moved on, a TICK, or a RESET. -/
theorem step_cases (s t : State) (h : step s = .next t) :
    (∃ keys rnd, s.nextIsStep keys rnd ∧ s.dequeue.runStep keys rnd = .next t) ∨
    (∃ rest, s.pending = .tick :: rest ∧ t = { s with pending := rest }.tick) ∨
    (∃ program rest, s.pending = .reset program :: rest ∧ t = { s with pending := rest }.load program) := by
  cases hp : s.pending with
  | nil =>
    refine .inl ⟨_, _, .inr ⟨hp, rfl, rfl⟩, ?_⟩
    rw [← step_of_nextIsStep s _ _ (.inr ⟨hp, rfl, rfl⟩)]
    exact h
  | cons op rest =>
    cases op with
    | step keys rnd =>
      refine .inl ⟨keys, rnd, .inl ⟨rest, hp⟩, ?_⟩
      rw [← step_of_nextIsStep s _ _ (.inl ⟨rest, hp⟩)]
      exact h
    | tick =>
      simp only [step, State.cycle, hp] at h
      exact .inr (.inl ⟨rest, rfl, (Host.Outcome.next.inj h).symm⟩)
    | reset program =>
      simp only [step, State.cycle, hp] at h
      exact .inr (.inr ⟨program, rest, rfl, (Host.Outcome.next.inj h).symm⟩)

/-- A TICK that comes next. -/
theorem step_tick (s : State) (rest : List CallerOp) (h : s.pending = .tick :: rest) :
    step s = .next { s with pending := rest }.tick := by
  simp only [step, State.cycle, h]

/-- A RESET that comes next. -/
theorem step_reset (s : State) (program : List Byte) (rest : List CallerOp) (h : s.pending = .reset program :: rest) :
    step s = .next ({ s with pending := rest }.load program) := by
  simp only [step, State.cycle, h]

/-- Every step answers a next state. -/
theorem step_next (s : State) : ∃ t, step s = .next t := by
  have run : ∀ (u : State) (keys : Keypad) (rnd : Byte), ∃ t, u.runStep keys rnd = .next t := by
    intro u keys rnd
    unfold State.runStep
    split
    · split
      · unfold State.runWord
        split
        · exact exec_next _ _
        · exact ⟨_, rfl⟩
      · exact ⟨_, rfl⟩
    · exact ⟨_, rfl⟩
  unfold step State.cycle
  split
  · exact run _ _ _
  · exact ⟨_, rfl⟩
  · exact ⟨_, rfl⟩
  · exact run _ _ _

end Sys2Proof.Machine
end

