-- ==== Sys2Proof/Tests/Slice0.lean ====
section
/-! SUPPORT. The model's own tests. Expected results come from spec/: the encodings of 30_encoding R76, the vectors of 95_test_vectors (their ids stand in the docstrings), hand calculation from the rules. Then a witness for the hypotheses of every statement that has some. -/

set_option Elab.async false

namespace Sys2Proof.Tests

open Sys2Proof Sys2Proof.Machine

/-! ## Small states -/

/-- A key snapshot from the numbers of the pressed keys. -/
def snapshot (pressedKeys : List Nat) : Keypad := Vector.ofFn fun k => pressedKeys.contains k.val

/-- The reset state with an instruction word where the next STEP fetches it. -/
def start (op : Nat) : State := State.reset.withFetchWord 16 op

/-- The same with a caller that issues one STEP with these inputs. -/
def given (keys : List Nat) (rnd : Byte) (s : State) : State := { s with pending := [.step (snapshot keys) rnd] }

/-- The caller issues one STEP, no key pressed, random byte 0: the convention of the vectors. -/
def quiet (s : State) : State := given [] 0 s

/-- The state a step answers. -/
def after (s : State) : State :=
  match step s with
  | .next t => t
  | .fault f => nomatch f
  | .refused _ => s

/-- The state an instruction's own effect answers. -/
def ran (i : Instr) (s : State) : State :=
  match exec i s with
  | .next t => t
  | .fault f => nomatch f
  | .refused _ => s

/-! ## WellFormed: a count that does not fit its field is refused -/

theorem test_drw_of_16_rows_is_ill_formed : ¬ (Instr.drw 0 0 16).wf ∧ (Instr.drw 15 15 15).wf := by decide
theorem test_stRegs_to_16_is_ill_formed : ¬ (Instr.stRegs 16).wf ∧ (Instr.stRegs 15).wf := by decide
theorem test_ldRegs_to_16_is_ill_formed : ¬ (Instr.ldRegs 16).wf ∧ (Instr.ldRegs 15).wf := by decide

/-! ## Decoding: words written out from the encodings of R76, for every constructor -/

theorem test_decode_flow :
    decodeWord 0b0000_0000_1110_1110 = some .ret ∧
    decodeWord 0b0001_1010_1011_1100 = some (.jp 0xABC) ∧
    decodeWord 0b0010_0100_0101_0110 = some (.call 0x456) ∧
    decodeWord 0b1011_0011_0000_0001 = some (.jpV0 0x301) ∧
    decodeWord 0b0011_1010_0100_0010 = some (.seImm 10 0x42) ∧
    decodeWord 0b0100_1010_0100_0011 = some (.sneImm 10 0x43) ∧
    decodeWord 0b0101_0001_0010_0000 = some (.seReg 1 2) ∧
    decodeWord 0b1001_0001_0010_0000 = some (.sneReg 1 2) := by decide

theorem test_decode_alu_immediate :
    decodeWord 0b0110_1010_0111_1111 = some (.ldImm 10 0x7F) ∧
    decodeWord 0b0111_1111_1111_1111 = some (.addImm 15 0xFF) ∧
    decodeWord 0b1100_0001_0000_1111 = some (.rnd 1 0x0F) := by decide

theorem test_decode_alu_register :
    decodeWord 0b1000_0001_0010_0000 = some (.ldReg 1 2) ∧
    decodeWord 0b1000_0001_0010_0001 = some (.or 1 2) ∧
    decodeWord 0b1000_0001_0010_0010 = some (.and 1 2) ∧
    decodeWord 0b1000_0001_0010_0011 = some (.xor 1 2) ∧
    decodeWord 0b1000_0001_0010_0100 = some (.addReg 1 2) ∧
    decodeWord 0b1000_0001_0010_0101 = some (.sub 1 2) ∧
    decodeWord 0b1000_1010_1011_0110 = some (.shr 10 11) ∧
    decodeWord 0b1000_0001_0010_0111 = some (.subn 1 2) ∧
    decodeWord 0b1000_0001_0010_1110 = some (.shl 1 2) := by decide

theorem test_decode_index_and_memory :
    decodeWord 0b1010_0001_0010_0011 = some (.ldI 0x123) ∧
    decodeWord 0b1111_0001_0001_1110 = some (.addI 1) ∧
    decodeWord 0b1111_0011_0010_1001 = some (.ldF 3) ∧
    decodeWord 0b1111_0011_0011_0011 = some (.ldB 3) ∧
    decodeWord 0b1111_1111_0101_0101 = some (.stRegs 15) ∧
    decodeWord 0b1111_1110_0110_0101 = some (.ldRegs 14) := by decide

theorem test_decode_display :
    decodeWord 0b0000_0000_1110_0000 = some .cls ∧
    decodeWord 0b1101_0101_1010_0011 = some (.drw 5 10 3) ∧
    decodeWord 0b1101_0001_0010_0000 = some (.drw 1 2 0) := by decide

theorem test_decode_timers_and_keypad :
    decodeWord 0b1110_0001_1001_1110 = some (.skp 1) ∧
    decodeWord 0b1110_0000_1010_0001 = some (.sknp 0) ∧
    decodeWord 0b1111_0010_0000_0111 = some (.ldVxDt 2) ∧
    decodeWord 0b1111_0010_0000_1010 = some (.ldVxK 2) ∧
    decodeWord 0b1111_0010_0001_0101 = some (.ldDtVx 2) ∧
    decodeWord 0b1111_0010_0001_1000 = some (.ldStVx 2) := by decide

/-- V-DEC-9 to V-DEC-20: one word of each invalid class. -/
theorem test_decode_refuses_invalid_words :
    decodeWord 0x0000 = none ∧ decodeWord 0x00E1 = none ∧ decodeWord 0x0123 = none ∧ decodeWord 0x5121 = none ∧
    decodeWord 0x8128 = none ∧ decodeWord 0x812F = none ∧ decodeWord 0x9121 = none ∧ decodeWord 0xE19F = none ∧
    decodeWord 0xE100 = none ∧ decodeWord 0xF100 = none ∧ decodeWord 0xF156 = none ∧ decodeWord 0xFFFF = none := by decide

/-- The high byte comes first (R54, V-DEC-1), a rest is left over, and one byte is no instruction. -/
theorem test_decode_takes_the_high_byte_first :
    decode [0xD5, 0xA3, 0x77] = .ok (.drw 5 10 3, [0x77]) ∧ decode [0xD5] = .error .tooShort ∧
    decode [0x00, 0x00] = .error (.invalidInstruction 0) := by decide

theorem test_decodeTableWord :
    decodeTableWord 16 0xD5A3 = some (.drw 5 10 3) ∧ decodeTableWord 16 0x00E0 = some .cls ∧
    decodeTableWord 16 0x8128 = none := by decide

/-- R76: "The base set has 34 instructions". -/
theorem test_opcode_map_has_34_rows : opcodeMap.length = 34 := rfl

/-- R53: the first byte of the font area, the first and last byte of glyph A at 0x082, the last byte of glyph F, and the zeros beside them. -/
theorem test_font_at_reset :
    State.reset.readByte 0x04F = 0 ∧ State.reset.readByte 0x050 = 0xF0 ∧ State.reset.readByte 0x082 = 0xF0 ∧
    State.reset.readByte 0x086 = 0x90 ∧ State.reset.readByte 0x09F = 0x80 ∧ State.reset.readByte 0x0A0 = 0 := by decide

/-! ## Single steps -/

/-- V-FLOW-1. -/
theorem test_jp : (after (quiet (start 0x1ABC))).pc = 0x0ABC := by decide
/-- V-FLOW-20: a call to itself pushes the advanced pc on top. -/
theorem test_call : (fun t => (t.pc, t.stack)) (after (quiet { start 0x2200 with stack := [0x0202] })) =
    (0x0200, [0x0202, 0x0202]) := by decide
/-- V-FLOW-4, at 0x200. -/
theorem test_ret_pops : (fun t => (t.pc, t.stack, t.fault)) (after (quiet { start 0x00EE with stack := [0x0302, 0x0111] })) =
    (0x0302, [0x0111], none) := by decide
/-- V-FLOW-5. -/
theorem test_ret_on_empty_stack : (fun t => (t.pc, t.fault)) (after (quiet (start 0x00EE))) =
    (0x0200, some .emptyStackReturn) := by decide
/-- V-FLOW-7: not masked. -/
theorem test_jpV0 : (after (quiet ((start 0xBFFF).setV 0 0xFF))).pc = 0x10FE := by decide
/-- V-FLOW-8, V-FLOW-9. -/
theorem test_seImm : (after (quiet ((start 0x3A42).setV 10 0x42))).pc = 0x0204 ∧
    (after (quiet ((start 0x3A42).setV 10 0x43))).pc = 0x0202 := by decide
/-- V-FLOW-10, V-FLOW-11. -/
theorem test_sneImm : (after (quiet ((start 0x4A42).setV 10 0x42))).pc = 0x0202 ∧
    (after (quiet ((start 0x4A42).setV 10 0x43))).pc = 0x0204 := by decide
/-- V-FLOW-12, V-FLOW-13. -/
theorem test_seReg : (after (quiet (((start 0x5120).setV 1 7).setV 2 7))).pc = 0x0204 ∧
    (after (quiet (((start 0x5120).setV 1 7).setV 2 8))).pc = 0x0202 := by decide
/-- V-FLOW-15, V-FLOW-16. -/
theorem test_sneReg : (after (quiet (((start 0x9120).setV 1 7).setV 2 7))).pc = 0x0202 ∧
    (after (quiet (((start 0x9120).setV 1 7).setV 2 8))).pc = 0x0204 := by decide

/-- V-ALU-1. -/
theorem test_ldImm : (after (quiet (start 0x6A7F))).getV 10 = 0x7F := by decide
/-- V-ALU-3: X = 15, no flag over the sum. -/
theorem test_addImm : (after (quiet ((start 0x7F01).setV 15 0xFF))).getV 15 = 0 := by decide
/-- V-ALU-4. -/
theorem test_ldReg : (after (quiet (((start 0x8120).setV 1 5).setV 2 9))).getV 1 = 9 := by decide
/-- V-ALU-5: VF stays. -/
theorem test_or : (fun t => (t.getV 1, t.getV 15)) (after (quiet ((((start 0x8121).setV 1 0x0C).setV 2 0x0A).setV 15 7))) =
    (0x0E, 7) := by decide
/-- V-ALU-6. -/
theorem test_and : (fun t => (t.getV 1, t.getV 15)) (after (quiet ((((start 0x8122).setV 1 0x0C).setV 2 0x0A).setV 15 7))) =
    (0x08, 7) := by decide
/-- V-ALU-7. -/
theorem test_xor : (fun t => (t.getV 1, t.getV 15)) (after (quiet (((start 0x8113).setV 1 0x5A).setV 15 7))) = (0, 7) := by decide
/-- V-ALU-8: X = 15. -/
theorem test_addReg_to_VF : (after (quiet (((start 0x8F14).setV 15 0xF0).setV 1 0x20))).getV 15 = 1 := by decide
/-- V-ALU-22: Y = 15, the old VF is the addend. -/
theorem test_addReg_from_VF : (fun t => (t.getV 1, t.getV 15)) (after (quiet (((start 0x81F4).setV 1 0xFF).setV 15 2))) =
    (1, 1) := by decide
/-- V-ALU-10. -/
theorem test_sub_borrows : (fun t => (t.getV 1, t.getV 15)) (after (quiet (((start 0x8125).setV 1 3).setV 2 0x0A))) =
    (0xF9, 0) := by decide
/-- V-ALU-11, and its flag inverted under the other polarity. -/
theorem test_sub_of_equals : (after (quiet (((start 0x8125).setV 1 7).setV 2 7))).getV 15 = 1 ∧
    (after (quiet { ((start 0x8125).setV 1 7).setV 2 7 with params := ⟨defaultFont, .borrow⟩ })).getV 15 = 0 := by decide
/-- V-ALU-13, V-ALU-14. -/
theorem test_subn : (fun t => (t.getV 1, t.getV 15)) (after (quiet (((start 0x8127).setV 1 3).setV 2 0x0A))) = (7, 1) ∧
    (fun t => (t.getV 1, t.getV 15)) (after (quiet (((start 0x8127).setV 1 0x0A).setV 2 3))) = (0xF9, 0) := by decide
/-- V-ALU-18, V-ALU-33: X = 15, the flag is the last write. -/
theorem test_shr_to_VF : (after (quiet ((start 0x8F06).setV 15 3))).getV 15 = 1 ∧
    (after (quiet ((start 0x8F06).setV 15 2))).getV 15 = 0 := by decide
/-- V-ALU-19: Y ignored. -/
theorem test_shr : (fun t => (t.getV 10, t.getV 7, t.getV 15)) (after (quiet ((start 0x8A76).setV 10 0xFF))) = (0x7F, 0, 1) := by decide
/-- V-ALU-20, V-ALU-27: only bit 7 goes to the flag. -/
theorem test_shl : (fun t => (t.getV 1, t.getV 15)) (after (quiet (((start 0x812E).setV 1 0x20).setV 15 1))) = (0x40, 0) ∧
    (fun t => (t.getV 1, t.getV 15)) (after (quiet ((start 0x811E).setV 1 0xA0))) = (0x40, 1) := by decide
/-- V-ALU-24. -/
theorem test_rnd : (after (given [] 0xA7 (start 0xC10F))).getV 1 = 7 := by decide

/-- V-IDX-1. -/
theorem test_ldI : (after (quiet (start 0xA123))).idx = 0x0123 := by decide
/-- V-IDX-4, V-IDX-6. -/
theorem test_addI :
    (fun t => (t.idx, t.getV 15)) (after (quiet { ((start 0xF11E).setV 1 1).setV 15 1 with idx := 0x0FFF })) = (0x1000, 0) ∧
    (fun t => (t.idx, t.getV 15)) (after (quiet { (start 0xFF1E).setV 15 5 with idx := 0xFFFE })) = (0x0003, 1) := by decide
/-- V-IDX-8, V-IDX-9. -/
theorem test_ldF : (after (quiet ((start 0xF329).setV 3 0x0F))).idx = 0x009B ∧
    (after (quiet ((start 0xF329).setV 3 0x10))).fault = some (.fontIndexOutOfRange 0x10) := by decide
/-- V-IDX-12. -/
theorem test_ldB : (fun t => (t.readBytes 0xFFC 5, t.fault)) (after (quiet { (start 0xF333).setV 3 0x7B with idx := 0x0FFD })) =
    ([0, 1, 2, 3, 0], none) := by decide
/-- V-IDX-13: no partial store. -/
theorem test_ldB_above_memory : (fun t => (t.readBytes 0xFFE 2, t.pc, t.fault))
    (after (quiet { (start 0xF333).setV 3 0x07 with idx := 0x0FFE })) = ([0, 0], 0x0200, some (.addressOutOfRange 0x1000)) := by decide
/-- V-IDX-14: X = 0 stores one byte. -/
theorem test_stRegs : (fun t => (t.readBytes 0x400 2, t.idx))
    (after (quiet { ((start 0xF055).setV 0 0xAA).setV 1 0xBB with idx := 0x0400 })) = ([0xAA, 0], 0x0400) := by decide
/-- V-IDX-18, V-IDX-19. -/
theorem test_ldRegs :
    (fun t => (t.getV 0, t.idx)) (after (quiet ({ start 0xF065 with idx := 0x0FFF }.storeBytes 0xFFF [0x5A]))) = (0x5A, 0x0FFF) ∧
    (fun t => (t.getV 0, t.fault)) (after (quiet ({ start 0xF165 with idx := 0x0FFF }.storeBytes 0xFFF [0x5A]))) =
      (0, some (.addressOutOfRange 0x1000)) := by decide

/-- V-DRW-9. -/
theorem test_cls : (fun t => (t.fb.pixel 0 0, t.fb.pixel 31 63, t.updated))
    (after (quiet { start 0x00E0 with fb := (Display.blank.setPixel 0 0 true).setPixel 31 63 true })) = (false, false, true) := by decide
/-- V-DRW-3: the first pixel drawn, the last column, the flag, and no wrap. -/
theorem test_drw_clips_at_the_right_edge : (fun t => (t.fb.pixel 0 59, t.fb.pixel 0 60, t.fb.pixel 0 63, t.fb.pixel 0 0, t.getV 15))
    (after (quiet ({ (start 0xD011).setV 0 0x3C with idx := 0x300 }.storeBytes 0x300 [0xFF]))) = (false, true, true, false, 0) := by decide
/-- V-DRW-2: one collision; a pixel under a 0 bit stays. -/
theorem test_drw_collides : (fun t => (t.fb.pixel 0 0, t.fb.pixel 0 1, t.fb.pixel 0 5, t.getV 15, t.updated))
    (after (quiet ({ start 0xD011 with idx := 0x300, fb := (Display.blank.setPixel 0 0 true).setPixel 0 5 true }.storeBytes 0x300 [0xC3]))) =
      (false, true, true, 1, true) := by decide

/-- V-KEY-1, V-KEY-3. -/
theorem test_skp : (after (given [5] 0 ((start 0xE19E).setV 1 5))).pc = 0x0204 ∧
    (after (given (List.range 16) 0 ((start 0xE19E).setV 1 0x15))).pc = 0x0202 := by decide
/-- V-KEY-4, V-KEY-6. -/
theorem test_sknp : (after (given [5] 0 ((start 0xE1A1).setV 1 5))).pc = 0x0202 ∧
    (after (given (List.range 16) 0 ((start 0xE1A1).setV 1 0x15))).pc = 0x0204 := by decide
/-- V-TMR-1. -/
theorem test_ldVxDt : (after (quiet { start 0xF207 with dt := 0x2A })).getV 2 = 0x2A := by decide
/-- V-KEY-7. -/
theorem test_ldVxK_waits : (fun t => (t.getV 2, t.pc)) (after (given [] 0 ((start 0xF20A).setV 2 0x99))) = (0x99, 0x0200) := by decide
/-- V-KEY-8. -/
theorem test_ldVxK : (fun t => (t.getV 2, t.pc)) (after (given [3, 9, 12] 0 ((start 0xF20A).setV 2 0x99))) = (3, 0x0202) := by decide
/-- V-TMR-6. -/
theorem test_ldDtVx : (after (quiet ((start 0xF215).setV 2 0x3C))).dt = 0x3C := by decide
/-- V-TMR-8. -/
theorem test_ldStVx : (fun t => (t.st, t.soundActive)) (after (quiet { start 0xF218 with st := 5 })) = (0, false) := by decide

/-- V-TMR-3, V-TMR-4, V-TMR-10. -/
theorem test_tick : (fun t => (t.dt, t.st)) (after { State.reset with dt := 5, st := 1, pending := [.tick] }) = (4, 0) ∧
    (fun t => (t.dt, t.st)) (after { State.reset with pending := [.tick] }) = (0, 0) ∧
    (after { State.reset with dt := 5, fault := some .emptyStackReturn, pending := [.tick] }).dt = 5 := by decide
/-- V-EXC-1, V-EXC-10: the word is carried whole. -/
theorem test_invalid_word : (fun t => (t.pc, t.fault, t.updated)) (after (quiet (start 0x8008))) =
    (0x0200, some (.invalidInstruction 0x8008), false) := by decide
/-- V-EXC-3, V-EXC-4: the range check comes before the fetch. -/
theorem test_fetch_above_memory : (after (quiet { State.reset with pc := 0x0FFF })).fault = some (.addressOutOfRange 0x1000) ∧
    (after (quiet { State.reset with pc := 0x1001 })).fault = some (.addressOutOfRange 0x1001) := by decide
/-- V-EXC-5: the last legal fetch. -/
theorem test_last_legal_fetch : (fun t => (t.getV 0, t.pc, t.fault))
    (after (quiet ({ State.reset with pc := 0x0FFE }.storeBytes 0xFFE [0x60, 0x12]))) = (0x12, 0x1000, none) := by decide
/-- V-RST-2, V-EXC-9: RESET over a set latch. -/
theorem test_reset : (fun t => (t.pc, t.fault, t.readBytes 0x200 3))
    (after { State.reset with pc := 7, fault := some .emptyStackReturn, pending := [.reset [0x12, 0x00]] }) =
      (0x0200, none, [0x12, 0x00, 0x00]) := by decide
/-- V-RST-5: a program that does not fit, the latch set. -/
theorem test_reset_too_large :
    State.load { State.reset with pc := 7, fault := some .emptyStackReturn } (List.replicate 3585 0) =
      { State.reset with pc := 7, fault := some .emptyStackReturn, loadError := some (.programTooLarge 3585) } := by
  rw [State.load_error _ _ (by rw [List.length_replicate]; decide), List.length_replicate]

/-- `withFetchWord` also clears a latch and a TICK in the way, and step runs the word. -/
theorem test_withFetchWord :
    (after ({ State.reset with fault := some .emptyStackReturn, pending := [.tick, .step (snapshot []) 0] }.withFetchWord 16 0x6A7F)).getV 10 = 0x7F ∧
    (after (State.reset.withFetchWord 16 0x6A7F)).getV 10 = 0x7F := by decide

/-- The codes of 60_exceptions R200. -/
theorem test_codes : Fatal.code none = 0 ∧ LoadError.code (.programTooLarge 3585) = 1 ∧ Fatal.code (some (.invalidInstruction 0)) = 2 ∧
    Fatal.code (some .emptyStackReturn) = 3 ∧ Fatal.code (some (.fontIndexOutOfRange 16)) = 4 ∧
    Fatal.code (some (.addressOutOfRange 0x1000)) = 5 := by decide

/-! ## Witnesses: states and operands that meet the hypotheses of the statements, at the ends of their ranges -/

theorem witness_DecodeOfEncodeIsTheInstruction : (Instr.drw 15 15 15).wf ∧ (Instr.drw 0 0 0).wf ∧ (Instr.stRegs 15).wf ∧ Instr.cls.wf := by decide
theorem witness_EncodeOfDecodeIsTheWord : decodeWord 0xFF65 = some (.ldRegs 15) := by decide
theorem witness_DecoderFollowsTheOpcodeMap : decodeWord 0xDFFF = some (.drw 15 15 15) ∧ decodeWord 0x0000 = none := by decide

/-- The last legal fetch, the STEP queued. -/
theorem witness_StepRunsTheDecodedInstruction :
    let s : State := quiet ({ State.reset with pc := 0x0FFE }.storeBytes 0xFFE [0x60, 0x12])
    s.nextIsStep (snapshot []) 0 ∧ s.fault = none ∧ s.pc.toNat + 1 ≤ 0xFFF ∧
      decode [s.readByte s.pc.toNat, s.readByte (s.pc.toNat + 1)] = .ok (.ldImm 0 0x12, []) :=
  ⟨.inl ⟨[], rfl⟩, by decide, by decide, by decide⟩

/-- The caller's queue empty, the inputs free. -/
theorem witness_StepRunsTheDecodedInstruction_free :
    let s : State := start 0x6012
    s.nextIsStep (Config.freeKeys 0) (Config.freeByte 0) ∧ s.fault = none ∧ s.pc.toNat + 1 ≤ 0xFFF ∧
      decode [s.readByte s.pc.toNat, s.readByte (s.pc.toNat + 1)] = .ok (.ldImm 0 0x12, []) :=
  ⟨.inr ⟨rfl, rfl, rfl⟩, by decide, by decide, by decide⟩

theorem witness_StepRunsTheEncodedInstruction :
    let s : State := quiet ({ State.reset with pc := 0x0FFE }.storeBytes 0xFFE [0xFF, 0x65])
    s.nextIsStep (snapshot []) 0 ∧ s.fault = none ∧ s.pc.toNat + 1 ≤ 0xFFF ∧ (Instr.ldRegs 15).wf ∧
      [s.readByte s.pc.toNat, s.readByte (s.pc.toNat + 1)] = encodeBytes (.ldRegs 15) :=
  ⟨.inl ⟨[], rfl⟩, by decide, by decide, by decide, by decide⟩

theorem witness_InvalidWordIsFatal :
    let s : State := quiet { State.reset with pc := 0x0FFE }
    s.nextIsStep (snapshot []) 0 ∧ s.fault = none ∧ s.pc.toNat + 1 ≤ 0xFFF ∧
      decodeWord (joinBytes (s.readByte s.pc.toNat) (s.readByte (s.pc.toNat + 1))) = none :=
  ⟨.inl ⟨[], rfl⟩, by decide, by decide, by decide⟩

theorem witness_FetchAboveMemoryIsFatal : ∀ a ∈ [0x0FFF#16, 0x1000#16, 0xFFFF#16],
    let s : State := quiet { State.reset with pc := a }
    s.nextIsStep (snapshot []) 0 ∧ s.fault = none ∧ 0xFFE < s.pc.toNat := by
  intro a ha
  refine ⟨.inl ⟨[], rfl⟩, rfl, ?_⟩
  show 0xFFE < a.toNat
  simp only [List.mem_cons, List.not_mem_nil, or_false] at ha
  rcases ha with rfl | rfl | rfl <;> decide

theorem witness_FatalStepChangesNothingElse :
    let s : State := quiet (start 0x00EE)
    s.fault = none ∧ step s = .next (after s) ∧ (after s).fault ≠ none := ⟨rfl, rfl, by decide⟩

/-- A STEP and a RESET, the latch set. -/
theorem witness_LatchHoldsUntilReset :
    let s : State := quiet { State.reset with fault := some .emptyStackReturn }
    let r : State := { s with pending := [.reset [0x12, 0x00]] }
    s.fault ≠ none ∧ (after s).fault ≠ none ∧ r.fault ≠ none ∧ (after r).fault = none := by decide

/-- The invariant holds of the reset state, and a step leads on from it. -/
theorem witness_StepKeepsTheInvariant : State.reset.Inv ∧ (quiet State.reset).Inv ∧ step (quiet State.reset) = .next (after (quiet State.reset)) := by
  have h : ∀ p, ({ State.reset with pending := p } : State).Inv := fun p =>
    ⟨⟨.nil, fun c h => nomatch h⟩, (by decide : (0x0200 : Word).toNat ≤ 0x10FE), fun a h => (nomatch h), fun k h => (nomatch h), fun h => absurd rfl h⟩
  exact ⟨h [], h _, rfl⟩

/-- The bounds of the invariant are reached: V-FLOW-7 leaves the pc 0x10FE. -/
theorem witness_invariant_bound : (after (quiet ((start 0xBFFF).setV 0 0xFF))).pc.toNat = 0x10FE := by decide

theorem witness_StepKeepsTheParameters : step (quiet State.reset) = .next (after (quiet State.reset)) := rfl

/-- Both clauses: the row that completes, and the row that raises. -/
theorem witness_EveryInstructionLeavesThePcAsTabled :
    let s : State := { State.reset with pc := 0x0202, stack := [0x0FFE] }
    let e : State := { State.reset with pc := 0x0001 }
    s.pc = 0x0200 + 2 ∧ s.fault = none ∧ exec .ret s = .next (ran .ret s) ∧ (ran .ret s).fault = none ∧
      e.pc = 0xFFFF + 2 ∧ e.fault = none ∧ exec .ret e = .next (ran .ret e) ∧ (ran .ret e).fault ≠ none :=
  ⟨rfl, rfl, rfl, rfl, rfl, rfl, rfl, by decide⟩

theorem witness_ReturnPopsOrIsFatal :
    ({ State.reset with stack := [0x1000] } : State).stack = 0x1000 :: [] ∧ State.reset.stack = [] := ⟨rfl, rfl⟩

theorem witness_SubtractionsWriteDifferenceThenBorrow :
    State.reset.params.subFlag = .notBorrow ∧
    ({ State.reset with params := ⟨defaultFont, .borrow⟩ } : State).params.subFlag = .borrow := ⟨rfl, rfl⟩

theorem witness_RandomByteIsMasked : (0x0F : Byte) &&& ~~~0x0F = 0 ∧ (0xFF : Byte) &&& ~~~0xFF = 0 ∧ (0 : Byte) &&& ~~~0 = 0 := by decide

/-- Both clauses: a flag written, and register 15 kept. -/
theorem witness_FlagRegisterIsWrittenOnlyAsTabled :
    State.reset.fault = none ∧
    exec (.addReg 1 2) State.reset = .next (ran (.addReg 1 2) State.reset) ∧ (Instr.addReg 1 2).writesFlag ∧
    (ran (.addReg 1 2) State.reset).fault = none ∧
    exec (.or 14 15) State.reset = .next (ran (.or 14 15) State.reset) ∧ ¬ (Instr.or 14 15).writesFlag ∧ ¬ (Instr.or 14 15).writesV regF :=
  ⟨rfl, rfl, trivial, rfl, rfl, id, (by decide : ¬ (15 : Reg) = 14)⟩

theorem witness_RegistersChangeOnlyAsNamed :
    exec (.ldRegs 14) State.reset = .next (ran (.ldRegs 14) State.reset) ∧ ¬ (Instr.ldRegs 14).writesV regF ∧
      ¬ ((Instr.ldRegs 14).writesFlag ∧ regF = regF) :=
  ⟨rfl, (by decide : ¬ (15 : Reg).val ≤ 14), fun h => h.1⟩

theorem witness_FontAddressOrFatal :
    ((State.reset.setV 3 15).getV 3).toNat ≤ 15 ∧ ((State.reset.setV 3 16).getV 3).toNat > 15 := by decide

/-- The last in-range index of FX33. -/
theorem witness_DecimalDigitsAreStored :
    let s : State := { State.reset with idx := 0x0FFD }
    Memory.wf s.params.font s.mem ∧ s.dataBase + 2 ≤ 0xFFF := ⟨⟨.nil, fun c h => nomatch h⟩, by decide⟩

/-- The last in-range index of FX55 and FX65, X = 15 and X = 0. -/
theorem witness_RegistersAreStored :
    let s : State := { State.reset with idx := 0x0FF0 }
    let t : State := { State.reset with idx := 0x0FFF }
    (Instr.stRegs 15).wf ∧ Memory.wf s.params.font s.mem ∧ s.dataBase + 15 ≤ 0xFFF ∧ (Instr.stRegs 0).wf ∧ t.dataBase + 0 ≤ 0xFFF :=
  ⟨by decide, ⟨.nil, fun c h => nomatch h⟩, by decide, by decide, by decide⟩

theorem witness_RegistersAreLoaded :
    let s : State := { State.reset with idx := 0x0FF0 }
    (Instr.ldRegs 15).wf ∧ s.dataBase + 15 ≤ 0xFFF ∧ (Instr.ldRegs 0).wf := by decide

theorem witness_StoreThenLoadRestoresRegisters :
    let s : State := { State.reset with idx := 0x0FF0 }
    (Instr.stRegs 15).wf ∧ Memory.wf s.params.font s.mem ∧ s.dataBase + 15 ≤ 0xFFF :=
  ⟨by decide, ⟨.nil, fun c h => nomatch h⟩, by decide⟩

/-- Each clause at the first index out of range. -/
theorem witness_AccessAboveMemoryIsFatal :
    0xFFF < ({ State.reset with idx := 0x0FFE } : State).dataBase + 2 ∧
    0xFFF < ({ State.reset with idx := 0x0FF1 } : State).dataBase + 15 ∧
    0xFFF < ({ State.reset with idx := 0x1000 } : State).dataBase + 0 ∧
    (1 ≤ 15 ∧ 0xFFF < ({ State.reset with idx := 0x0FF2 } : State).dataBase + 15 - 1) ∧
    (1 ≤ 1 ∧ 0xFFF < ({ State.reset with idx := 0x1000 } : State).dataBase + 1 - 1) := by decide

/-- Each clause: a memory, a stack and an index register that change. -/
theorem witness_MemoryStackAndIndexHaveTheirWriters :
    let s : State := { State.reset.setV 0 1 with idx := 0x300 }
    exec (.stRegs 0) s = .next (ran (.stRegs 0) s) ∧ (ran (.stRegs 0) s).mem ≠ s.mem ∧
    exec (.call 0) s = .next (ran (.call 0) s) ∧ (ran (.call 0) s).stack ≠ s.stack ∧
    exec (.ldI 0) s = .next (ran (.ldI 0) s) ∧ (ran (.ldI 0) s).idx ≠ s.idx :=
  ⟨rfl, by decide, rfl, by decide, rfl, by decide⟩

theorem witness_ReadReturnsTheLatestWrite : Memory.wf defaultFont [(0xFFE, 1)] ∧ 0xFFF ≤ 0xFFF := by decide

theorem witness_MemoriesThatReadAlikeAreEqual : Memory.wf defaultFont [(0xFFE, 1)] ∧
    ∀ a, Memory.read defaultFont [(0xFFE, 1)] a = Memory.read defaultFont [(0xFFE, 1)] a := ⟨by decide, fun _ => rfl⟩

theorem witness_StoreIsSeenByTheFetch :
    let s : State := { State.reset with idx := 0x0FF0 }
    (Instr.stRegs 15).wf ∧ Memory.wf s.params.font s.mem ∧ s.dataBase + 15 ≤ 0xFFF ∧
      (15 : Reg).val = (14 : Reg).val + 1 ∧ (15 : Reg).val ≤ 15 :=
  ⟨by decide, ⟨.nil, fun c h => nomatch h⟩, by decide, rfl, by decide⟩

/-- No row at any index; fifteen rows at the last index; a covered and an uncovered position, and a covered one that is on. -/
theorem witness_DrawInvertsTheClippedSprite :
    let s : State := ({ State.reset.setV 0 63 with idx := 0x0FF1, fb := Display.blank.setPixel 0 63 true }.storeBytes 0xFF1 [0x80])
    (Instr.drw 0 1 15).wf ∧ s.dataBase + 15 - 1 ≤ 0xFFF ∧ (Instr.drw 0 1 0).wf ∧
      s.spriteCovers 0 1 15 0 63 ∧ s.fb.pixel 0 63 = true ∧ ¬ s.spriteCovers 0 1 15 0 0 := by
  refine ⟨by decide, by decide, by decide, ⟨0, 0, by decide⟩, by decide, ?_⟩
  rintro ⟨r, b, _, _, _, h, _, _, _⟩
  have : (State.getV ({ State.reset.setV 0 63 with idx := 0x0FF1, fb := Display.blank.setPixel 0 63 true }.storeBytes 0xFF1 [0x80]) 0).toNat % 64 = 63 := by decide
  omega

theorem witness_DrawTwiceRestoresTheDisplay : (Instr.drw 15 15 15).wf ∧ ({ State.reset with idx := 0x0FF1 } : State).dataBase + 15 - 1 ≤ 0xFFF := by decide

/-- Both clauses: another instruction, and a TICK. -/
theorem witness_DisplayHasTwoWriters :
    (exec .ret State.reset = .next (ran .ret State.reset) ∧ Instr.ret ≠ .cls ∧ ∀ x y rows, Instr.ret ≠ .drw x y rows) ∧
    (let s : State := { State.reset with pending := [.tick] }
     s.pending = .tick :: [] ∧ step s = .next (after s)) :=
  ⟨⟨rfl, by decide, fun _ _ _ h => nomatch h⟩, rfl, rfl⟩

theorem witness_UpdatedExactlyForClearAndDraw :
    State.reset.updated = false ∧ State.reset.fault = none ∧ exec .cls State.reset = .next (ran .cls State.reset) ∧
      (ran .cls State.reset).updated = true := ⟨rfl, rfl, rfl, rfl⟩

/-- Each clause of the key skips: key 15 pressed, and a value above 15. -/
theorem witness_KeySkipsFollowTheSnapshot :
    let s : State := { State.reset.setV 1 15 with keys := snapshot [15] }
    let t : State := { State.reset.setV 1 16 with keys := snapshot (List.range 16) }
    (∃ k : Fin 16, (s.getV 1).toNat = k.val ∧ s.keys[k] = true) ∧ ¬ ∃ k : Fin 16, (t.getV 1).toNat = k.val ∧ t.keys[k] = true := by decide

/-- Each clause of the key wait: the highest key alone, and none. -/
theorem witness_KeyWaitTakesTheLowestKey :
    let s : State := { State.reset with keys := snapshot [15] }
    (s.keys[(15 : Fin 16)] = true ∧ ∀ j : Fin 16, j < 15 → s.keys[j] = false) ∧ ∀ k : Fin 16, State.reset.keys[k] = false := by decide

theorem witness_KeyWaitWithoutKeyLeavesTheCore :
    let s : State := quiet (start 0xF20A)
    s.nextIsStep (snapshot []) 0 ∧ s.fault = none ∧ s.pc.toNat + 1 ≤ 0xFFF ∧
      decodeWord (s.wordAt s.pc.toNat) = some (.ldVxK 2) ∧ ∀ k : Fin 16, (snapshot [])[k] = false :=
  ⟨.inl ⟨[], rfl⟩, by decide, by decide, by decide, by decide⟩

/-- Both clauses: the latch clear, and set. -/
theorem witness_TickDecrementsEachNonzeroTimer :
    let s : State := { State.reset with pending := [.tick] }
    let t : State := { s with fault := some .emptyStackReturn }
    s.pending = .tick :: [] ∧ s.fault = none ∧ t.pending = .tick :: [] ∧ t.fault ≠ none := by decide

theorem witness_SoundIsActiveUntilTheNthTick :
    let s : State := { State.reset with st := 1 }
    s.fault = none ∧ s.st.toNat ≠ 0 ∧ 0 < s.st.toNat ∧ ¬ 1 < s.st.toNat := by decide

theorem witness_StepsLeaveTheTimersToTheirWriters :
    let s : State := State.reset.setV 1 7
    exec (.ldDtVx 1) s = .next (ran (.ldDtVx 1) s) ∧ (ran (.ldDtVx 1) s).dt ≠ s.dt ∧
    exec (.ldStVx 1) s = .next (ran (.ldStVx 1) s) ∧ (ran (.ldStVx 1) s).st ≠ s.st :=
  ⟨rfl, by decide, rfl, by decide⟩

theorem witness_InputsAreSeenOnlyByTheirReaders :
    exec .cls State.reset = .next (ran .cls State.reset) ∧ (∀ x, Instr.cls ≠ .skp x) ∧ (∀ x, Instr.cls ≠ .sknp x) ∧
      (∀ x, Instr.cls ≠ .ldVxK x) ∧ (∀ x nn, Instr.cls ≠ .rnd x nn) ∧ ∀ x, Instr.cls ≠ .ldStVx x :=
  ⟨rfl, by simp, by simp, by simp, by simp, by simp⟩

/-- The longest program that fits. -/
theorem witness_ResetSetsEveryPiece :
    let s : State := { State.reset with pending := [.reset (List.replicate 3584 0xAB)] }
    s.pending = .reset (List.replicate 3584 0xAB) :: [] ∧ (List.replicate 3584 (0xAB : Byte)).length ≤ 3584 :=
  ⟨rfl, by rw [List.length_replicate]⟩

/-- The shortest program that does not. -/
theorem witness_TooLargeProgramChangesNothing :
    let s : State := { State.reset with pending := [.reset (List.replicate 3585 0)] }
    3584 < (List.replicate 3585 (0 : Byte)).length ∧ s.pending = .reset (List.replicate 3585 0) :: [] :=
  ⟨by rw [List.length_replicate]; decide, rfl⟩

theorem witness_ResetStateIsAsStated : (0x04F < 0x050 ∨ 0x09F < 0x04F) ∧ (0x0A0 < 0x050 ∨ 0x09F < 0x0A0) := by decide

/-- V-FLOW-2: a self-jump at 0x200. -/
theorem witness_SelfJumpIsAFixedPoint :
    let s : State := quiet (start 0x1200)
    s.nextIsStep (snapshot []) 0 ∧ s.idle :=
  ⟨.inl ⟨[], rfl⟩, rfl, by decide, 0x200, by decide, by decide⟩

end Sys2Proof.Tests
end

/-! ## Scope (00_scope R6): every operation of the caller keeps the parameters FONT and SUB_FLAG -/

namespace Sys2Proof.Machine

@[simp] theorem State.dequeue_params (s : State) : s.dequeue.params = s.params := by
  unfold State.dequeue
  split <;> rfl

@[simp] theorem State.tick_params (s : State) : s.tick.params = s.params := by
  by_cases hf : s.fault = none
  · rw [State.tick_running s hf]
  · rw [State.tick_latched s hf]

/-- RESET takes the parameters from the state it replaces, whether or not the program fits (R230, R231). -/
@[simp] theorem State.load_params (s : State) (program : List Byte) : (s.load program).params = s.params := by
  by_cases hl : program.length ≤ 3584
  · rw [State.load_ok s program hl]
  · rw [State.load_error s program (Nat.lt_of_not_le hl)]

theorem exec_params {i : Instr} {s t : State} (h : exec i s = .next t) : t.params = s.params := by
  obtain ⟨k, rfl, -⟩ | ⟨-, hparams, -⟩ := exec_cases i s t h
  · exact State.raise_params s k
  · exact hparams

theorem State.runStep_params {s t : State} {keys : Keypad} {rnd : Byte} (h : s.runStep keys rnd = .next t) :
    t.params = s.params := by
  obtain ⟨-, rfl⟩ | ⟨-, k, rfl, -⟩ | ⟨-, -, i, -, hexec⟩ := State.runStep_cases s t keys rnd h
  · rfl
  · simp
  · simpa using exec_params hexec

theorem step_params {s t : State} (h : step s = .next t) : t.params = s.params := by
  obtain ⟨keys, rnd, -, hrun⟩ | ⟨rest, -, rfl⟩ | ⟨program, rest, -, rfl⟩ := step_cases s t h
  · simpa using State.runStep_params hrun
  · simp
  · simp

/-- Settles O14: a STEP, a TICK and a RESET each keep the parameters. -/
theorem stepKeepsTheParameters : Obligations.StepKeepsTheParameters :=
  fun _ _ => step_params

end Sys2Proof.Machine


/-! ## The writers of each piece of state (10_state R20 to R32): what one instruction can change -/

namespace Sys2Proof.Machine

/-- Everything 00EE can do (R100). -/
theorem execRet_cases {s t : State} (h : execRet s = .next t) :
    (t = s.raise .emptyStackReturn ∧ s.stack = []) ∨
      ∃ a rest, s.stack = a :: rest ∧ t = { s with stack := rest }.jump a := by
  cases hs : s.stack with
  | nil =>
    rw [execRet_empty s hs] at h
    exact .inl ⟨(Host.Outcome.next.inj h).symm, rfl⟩
  | cons a rest =>
    rw [execRet_pop s a rest hs] at h
    exact .inr ⟨a, rest, rfl, (Host.Outcome.next.inj h).symm⟩

/-- Everything FX29 can do (R152). -/
theorem execLdF_cases {x : Reg} {s t : State} (h : execLdF x s = .next t) :
    t = s.raise (.fontIndexOutOfRange (s.getV x)) ∨ t = { s with idx := 0x050 + 5 * zextByte (s.getV x) } := by
  unfold execLdF at h
  split at h
  · exact .inl (Host.Outcome.next.inj h).symm
  · exact .inr (Host.Outcome.next.inj h).symm

/-- Everything FX0A can do: wait, with no key pressed, or take a key (R184). -/
theorem execLdVxK_cases {x : Reg} {s t : State} (h : execLdVxK x s = .next t) :
    (t = s.retreat ∧ ∀ k : Fin 16, s.keys[k] = false) ∨
      ∃ k : Fin 16, s.keys[k] = true ∧ t = s.setV x (BitVec.ofNat 8 k.val) := by
  unfold execLdVxK at h
  obtain ⟨hlow, hoff⟩ | ⟨k, hlow, hon, -⟩ := lowestPressed_cases s.keys
  · rw [hlow] at h
    exact .inl ⟨(Host.Outcome.next.inj h).symm, hoff⟩
  · rw [hlow] at h
    exact .inr ⟨k, hon, (Host.Outcome.next.inj h).symm⟩

/-- From `s` to `t` each piece of state changes only if the instruction is one of its writers, and the pieces of the
invariant and the timers change only as that writer says (R20 to R22, R27 to R32). -/
structure ExecFrame (i : Instr) (s t : State) : Prop where
  v : ∀ r, t.getV r = s.getV r ∨ i.writesV r ∨ (i.writesFlag ∧ r = regF)
  idx : t.idx = s.idx ∨ (∃ nnn, i = .ldI nnn) ∨ (∃ x, i = .addI x) ∨ ∃ x, i = .ldF x
  stack : t.stack = s.stack ∨ (i = .ret ∧ ∃ a, s.stack = a :: t.stack) ∨
    ∃ nnn, i = .call nnn ∧ t.stack = s.pc :: s.stack
  dt : t.dt = s.dt ∨ ∃ x, i = .ldDtVx x ∧ t.dt = s.getV x
  st : t.st = s.st ∨ ∃ x, i = .ldStVx x ∧ t.st = s.getV x
  mem : t.mem = s.mem ∨ (((∃ x, i = .ldB x) ∨ ∃ last, i = .stRegs last) ∧
    ∃ bs : List Byte, s.dataBase + bs.length ≤ 0x1000 ∧
      t.mem = Memory.writeBytes s.params.font s.mem s.dataBase bs)
  fb : t.fb = s.fb ∨ i = .cls ∨ ∃ x y rows, i = .drw x y rows

theorem ExecFrame.refl (i : Instr) (s : State) : ExecFrame i s s where
  v _ := .inl rfl
  idx := .inl rfl
  stack := .inl rfl
  dt := .inl rfl
  st := .inl rfl
  mem := .inl rfl
  fb := .inl rfl

section
variable {i : Instr} {s : State}

/-- A change of the pc and of the results is no change of these pieces. -/
theorem ExecFrame.raise (k : Fatal) : ExecFrame i s (s.raise k) := { ExecFrame.refl i s with }

theorem ExecFrame.skipIf (c : Bool) : ExecFrame i s (s.skipIf c) := by
  cases c <;> exact { ExecFrame.refl i s with }

theorem ExecFrame.setV {x : Reg} (b : Byte) (hx : i.writesV x) : ExecFrame i s (s.setV x b) where
  __ := ExecFrame.refl i s
  v r := by
    rw [State.getV_setV]
    split
    next hr => exact .inr (.inl (hr ▸ hx))
    next => exact .inl rfl

theorem ExecFrame.setFlag (b : Bool) (hi : i.writesFlag) : ExecFrame i s (s.setFlag b) where
  __ := ExecFrame.refl i s
  v r := by
    rw [State.getV_setFlag]
    split
    next hr => exact .inr (.inr ⟨hi, hr⟩)
    next => exact .inl rfl

theorem ExecFrame.setResult {x : Reg} (b : Byte) (f : Bool) (hx : i.writesV x) (hi : i.writesFlag) :
    ExecFrame i s (s.setResult x b f) where
  __ := ExecFrame.refl i s
  v r := by
    obtain hr | hr := (ExecFrame.setFlag f hi : ExecFrame i (s.setV x b) _).v r
    · exact ((ExecFrame.setV b hx).v r).imp_left hr.trans
    · exact .inr hr

theorem ExecFrame.storeBytes (bs : List Byte) (hi : (∃ x, i = .ldB x) ∨ ∃ last, i = .stRegs last)
    (hin : s.dataBase + bs.length ≤ 0x1000) : ExecFrame i s (s.storeBytes s.dataBase bs) where
  __ := ExecFrame.refl i s
  mem := .inr ⟨hi, bs, hin, rfl⟩

/-- An accessing instruction either raises or has its effect, in range. -/
theorem ExecFrame.accessing {n : Nat} {e t : State} (h : s.accessing n e = .next t)
    (he : n = 0 ∨ s.dataBase + n ≤ 0x1000 → ExecFrame i s e) : ExecFrame i s t := by
  obtain ⟨rfl, hin⟩ | ⟨rfl, -⟩ := State.accessing_cases s e t n h
  · exact he hin
  · exact .raise _

end

/-- A register past the block is not loaded (R155). -/
theorem Regs.getElem_load_of_length_le (v : Regs) (bs : List Byte) (r : Reg) (h : bs.length ≤ r.val) :
    (Regs.load v 0 bs)[r] = v[r] := by
  rw [Regs.getElem_load, if_pos (Nat.zero_le _), Nat.sub_zero, List.getElem?_eq_none h]
  rfl

/-- Each piece of state has its writers and no other. -/
theorem exec_frame {i : Instr} {s t : State} (h : exec i s = .next t) : ExecFrame i s t := by
  cases i with
  | ret =>
    obtain ⟨rfl, -⟩ | ⟨a, rest, hs, rfl⟩ := execRet_cases h
    · exact .raise _
    · exact { ExecFrame.refl _ s with stack := .inr (.inl ⟨rfl, a, hs⟩) }
  | call nnn => cases h; exact { ExecFrame.refl _ s with stack := .inr (.inr ⟨nnn, rfl, rfl⟩) }
  | jp | jpV0 => cases h; exact { ExecFrame.refl _ s with }
  | seImm | sneImm | seReg | sneReg | skp | sknp => cases h; exact .skipIf _
  | ldImm | addImm | ldReg | or | and | xor | rnd | ldVxDt => cases h; exact .setV _ rfl
  | addReg | sub | subn | shr | shl => cases h; exact .setResult _ _ rfl trivial
  | ldVxK x =>
    obtain ⟨rfl, -⟩ | ⟨k, -, rfl⟩ := execLdVxK_cases h
    · exact { ExecFrame.refl _ s with }
    · exact .setV _ rfl
  | ldDtVx x => cases h; exact { ExecFrame.refl _ s with dt := .inr ⟨x, rfl, rfl⟩ }
  | ldStVx x => cases h; exact { ExecFrame.refl _ s with st := .inr ⟨x, rfl, rfl⟩ }
  | ldI nnn => cases h; exact { ExecFrame.refl _ s with idx := .inr (.inl ⟨nnn, rfl⟩) }
  | addI x =>
    cases h
    exact { (ExecFrame.setFlag _ trivial : ExecFrame (.addI x) s (s.setFlag _)) with
      idx := .inr (.inr (.inl ⟨x, rfl⟩)) }
  | ldF x =>
    obtain rfl | rfl := execLdF_cases h
    · exact .raise _
    · exact { ExecFrame.refl _ s with idx := .inr (.inr (.inr ⟨x, rfl⟩)) }
  | ldB x => exact .accessing h fun hin => .storeBytes _ (.inl ⟨x, rfl⟩) (hin.resolve_left (by decide))
  | stRegs last =>
    refine .accessing h fun hin => .storeBytes _ (.inr ⟨last, rfl⟩) ?_
    have hlen : (s.v.toList.take (last + 1)).length ≤ last + 1 := List.length_take_le _ _
    omega
  | ldRegs last =>
    refine .accessing h fun _ => { ExecFrame.refl _ s with v := fun r => ?_ }
    by_cases hr : r.val ≤ last
    · exact .inr (.inl hr)
    · exact .inl (Regs.getElem_load_of_length_le _ _ r (by simp [State.readBytes, Memory.length_readBytes]; omega))
  | cls => cases h; exact { ExecFrame.refl _ s with fb := .inr (.inl rfl) }
  | drw x y rows =>
    exact .accessing h fun _ =>
      { (ExecFrame.setFlag _ trivial : ExecFrame (.drw x y rows) s (s.setFlag _)) with
        fb := .inr (.inr ⟨x, y, rows, rfl⟩) }

/-- Settles O28, from the register clause of the frame. -/
theorem registersChangeOnlyAsNamed : Obligations.RegistersChangeOnlyAsNamed := by
  intro i s t r h hv hflag
  exact ((exec_frame h).v r).resolve_right fun hw => hw.elim hv hflag

/-- A flag-writing instruction that raises nothing leaves a flag in x[15] (R21). -/
theorem exec_flag {i : Instr} {s t : State} (h : exec i s = .next t) (hi : i.writesFlag) (hf : t.fault = none) :
    ∃ b, t.getV regF = flagByte b := by
  cases i with
  | addReg | sub | subn | shr | shl => cases h; exact ⟨_, by rw [State.getV_setResult, if_pos rfl]⟩
  | addI x => cases h; exact ⟨_, by rw [State.getV_setFlag, if_pos rfl]⟩
  | drw x y rows =>
    obtain ⟨rfl, -⟩ | ⟨rfl, -⟩ := State.accessing_cases _ _ _ _ h
    · exact ⟨_, by rw [State.getV_setFlag, if_pos rfl]⟩
    · simp at hf
  | _ => exact hi.elim

/-- Settles O27: the flag written is 0 or 1, and register 15 has no other writers than the frame names. -/
theorem flagRegisterIsWrittenOnlyAsTabled : Obligations.FlagRegisterIsWrittenOnlyAsTabled := by
  intro i s t _ h
  refine ⟨fun hi hf => ?_, fun hi hv => registersChangeOnlyAsNamed i s t regF h hv fun hw => hi hw.1⟩
  obtain ⟨b, hb⟩ := exec_flag h hi hf
  rw [hb]
  cases b
  · exact .inl rfl
  · exact .inr rfl

/-- Settles O51, from the timer clauses of the frame. -/
theorem stepsLeaveTheTimersToTheirWriters : Obligations.StepsLeaveTheTimersToTheirWriters :=
  fun _ _ _ h => ⟨(exec_frame h).dt.resolve_left, (exec_frame h).st.resolve_left⟩

theorem State.tick_fb (s : State) : s.tick.fb = s.fb := by
  by_cases hf : s.fault = none
  · rw [State.tick_running s hf]
  · rw [State.tick_latched s hf]

/-- Settles O43: the display clause of the frame, and TICK. -/
theorem displayHasTwoWriters : Obligations.DisplayHasTwoWriters := by
  refine ⟨fun i s t h hcls hdrw => ?_, fun s t rest hp h => ?_⟩
  · exact (exec_frame h).fb.resolve_right fun hw => hw.elim hcls fun ⟨x, y, rows, hi⟩ => hdrw x y rows hi
  · rw [step_tick s rest hp] at h
    cases h
    exact State.tick_fb _

/-! ## The pc (10_state R25, R26) -/

theorem State.skipIf_pc_of_advanced {s : State} {pc0 : Word} (c : Bool) (hpc : s.pc = pc0 + 2) :
    (s.skipIf c).pc = if c then pc0 + 4 else pc0 + 2 := by
  rw [State.skipIf_pc, hpc, show pc0 + 2 + 2 = pc0 + 4 by bv_omega]

/-- An instruction that raises nothing leaves the pc as R25 tables it. -/
theorem exec_pc {i : Instr} {s t : State} {pc0 : Word} (h : exec i s = .next t) (hpc : s.pc = pc0 + 2)
    (hf : t.fault = none) : t.pc = pcAfter i s pc0 := by
  cases i with
  | ret =>
    obtain ⟨rfl, -⟩ | ⟨a, rest, hs, rfl⟩ := execRet_cases h
    · simp at hf
    · simp [pcAfter, hs]
  | seImm | sneImm | seReg | sneReg | skp =>
    cases h
    simp only [pcAfter, State.skipIf_pc_of_advanced _ hpc, beq_iff_eq, bne_iff_ne]
  | sknp x =>
    cases h
    rw [State.skipIf_pc_of_advanced _ hpc]
    cases hp : pressed s.keys (s.getV x) <;> simp [pcAfter, hp]
  | ldVxK x =>
    obtain ⟨rfl, hoff⟩ | ⟨k, hon, rfl⟩ := execLdVxK_cases h
    · have hnone : ¬ ∃ k : Fin 16, s.keys[k] = true := fun ⟨k, hk⟩ => by simp [hoff k] at hk
      simp only [pcAfter, if_neg hnone, State.retreat_pc, hpc, BitVec.add_sub_cancel]
    · rw [pcAfter, if_pos ⟨k, hon⟩]
      exact hpc
  | ldF x =>
    obtain rfl | rfl := execLdF_cases h
    · simp at hf
    · exact hpc
  | ldB | stRegs | ldRegs | drw =>
    obtain ⟨rfl, -⟩ | ⟨rfl, -⟩ := State.accessing_cases _ _ _ _ h
    · exact hpc
    · simp at hf
  | jp | call | jpV0 => cases h; rfl
  | _ => cases h; exact hpc

/-- With the latch clear before, a set latch after is a condition the instruction raised. -/
theorem exec_raised {i : Instr} {s t : State} (h : exec i s = .next t) (hf : s.fault = none) (ht : t.fault ≠ none) :
    ∃ k, t = s.raise k ∧ k.sound :=
  (exec_cases i s t h).resolve_right fun ⟨hkept, _⟩ => ht (hkept.trans hf)

/-- Settles O15: the table for an instruction that completes, and the last row for a fatal condition. -/
theorem everyInstructionLeavesThePcAsTabled : Obligations.EveryInstructionLeavesThePcAsTabled := by
  intro i s t pc0 hpc hf h
  refine ⟨exec_pc h hpc, fun ht => ?_⟩
  obtain ⟨k, rfl, -⟩ := exec_raised h hf ht
  exact State.raise_pc_of_advanced s k pc0 hpc

theorem zextNNN_toNat (nnn : BitVec 12) : (zextNNN nnn).toNat = nnn.toNat := by
  unfold zextNNN
  rw [BitVec.toNat_setWidth_of_le (by decide)]

theorem zextByte_toNat (b : Byte) : (zextByte b).toNat = b.toNat := by
  unfold zextByte
  rw [BitVec.toNat_setWidth_of_le (by decide)]

/-- Every row of R25 keeps the bound of R26, reached by BFFF with x[0] = 0xFF. -/
theorem pcAfter_le (i : Instr) (s : State) (pc0 : Word) (hpc0 : pc0.toNat ≤ 0xFFE)
    (hstack : ∀ a ∈ s.stack, a.toNat ≤ 0x1000) : (pcAfter i s pc0).toNat ≤ 0x10FE := by
  have h2 : (pc0 + 2).toNat = pc0.toNat + 2 := by bv_omega
  have h4 : (pc0 + 4).toNat = pc0.toNat + 4 := by bv_omega
  cases i with
  | jp nnn | call nnn =>
    have hn := nnn.isLt
    simp only [pcAfter, zextNNN_toNat]
    omega
  | jpV0 nnn =>
    have hn := nnn.isLt
    have hv := (s.getV 0).isLt
    simp only [pcAfter, BitVec.toNat_add, zextNNN_toNat, zextByte_toNat]
    omega
  | ret =>
    simp only [pcAfter]
    cases hs : s.stack with
    | nil => decide
    | cons a rest =>
      have ha := hstack a (by simp [hs])
      simp only [List.headD_cons]
      omega
  | seImm | sneImm | seReg | sneReg | skp | sknp | ldVxK => simp only [pcAfter]; split <;> omega
  | _ => simp only [pcAfter]; omega

/-! ## The invariant (10_state R26, 60_exceptions R200 and R205) -/

/-- The invariant reads five pieces of state, and `updated` only where it is true. -/
theorem State.Inv.congr {s t : State} (h : s.Inv) (hmem : t.mem = s.mem) (hparams : t.params = s.params)
    (hpc : t.pc = s.pc) (hstack : t.stack = s.stack) (hfault : t.fault = s.fault)
    (hupd : s.updated = false → t.updated = false) : t.Inv where
  mem_wf := by rw [hmem, hparams]; exact h.mem_wf
  pc_le := hpc ▸ h.pc_le
  stack_le := hstack ▸ h.stack_le
  fault_sound := hfault ▸ h.fault_sound
  fault_quiet hf := hupd (h.fault_quiet (hfault ▸ hf))

theorem State.Inv.dequeue {s : State} (h : s.Inv) : s.dequeue.Inv := by
  unfold State.dequeue
  split
  · exact h.congr rfl rfl rfl rfl rfl id
  · exact h.congr rfl rfl rfl rfl rfl id

theorem State.Inv.tick {s : State} (h : s.Inv) : s.tick.Inv := by
  by_cases hf : s.fault = none
  · rw [State.tick_running s hf]
    exact h.congr rfl rfl rfl rfl rfl id
  · rwa [State.tick_latched s hf]

/-- A fatal condition that fits its name keeps the invariant of the state the STEP began from. -/
theorem State.Inv.begin_raise {s : State} {k : Fatal} (h : s.Inv) (hk : k.sound) (keys : Keypad) (rnd : Byte) :
    ((s.begin keys rnd).raise k).Inv where
  mem_wf := h.mem_wf
  pc_le := by simpa using h.pc_le
  stack_le := h.stack_le
  fault_sound _ hl := Option.some.inj hl ▸ hk
  fault_quiet _ := rfl

theorem exec_mem_wf {i : Instr} {s t : State} (h : exec i s = .next t) (hwf : Memory.wf s.params.font s.mem) :
    Memory.wf t.params.font t.mem := by
  rw [exec_params h]
  obtain hmem | ⟨-, bs, hin, hmem⟩ := (exec_frame h).mem
  · rwa [hmem]
  · rw [hmem]
    exact Memory.wf_writeBytes _ bs s.mem s.dataBase hin hwf

/-- The bound of the return addresses holds of the one 2NNN pushes. -/
theorem exec_stack_le {i : Instr} {s t : State} (h : exec i s = .next t) (hpc : s.pc.toNat ≤ 0x1000)
    (hs : ∀ a ∈ s.stack, a.toNat ≤ 0x1000) : ∀ a ∈ t.stack, a.toNat ≤ 0x1000 := by
  obtain hkept | ⟨-, a, hpop⟩ | ⟨nnn, -, hpush⟩ := (exec_frame h).stack
  · rwa [hkept]
  · exact fun b hb => hs b (hpop ▸ List.mem_cons_of_mem a hb)
  · rw [hpush]
    exact List.forall_mem_cons.mpr ⟨hpc, hs⟩

/-- A STEP that runs an instruction keeps the invariant: the one fetched from a pc of at most 0xFFE. -/
theorem State.Inv.exec {i : Instr} {s t : State} {keys : Keypad} {rnd : Byte} (hs : s.Inv) (hf : s.fault = none)
    (hpc : s.pc.toNat ≤ 0xFFE) (h : exec i (s.begin keys rnd) = .next t) : t.Inv := by
  by_cases ht : t.fault = none
  · have hpc2 : (s.pc + 2).toNat = s.pc.toNat + 2 := by bv_omega
    exact {
      mem_wf := exec_mem_wf h hs.mem_wf
      pc_le := exec_pc h rfl ht ▸ pcAfter_le i _ s.pc hpc hs.stack_le
      stack_le := exec_stack_le h (by rw [State.begin_pc]; omega) hs.stack_le
      fault_sound := fun k hk => by simp [ht] at hk
      fault_quiet := fun hset => absurd ht hset }
  · obtain ⟨k, rfl, hk⟩ := exec_raised h hf ht
    exact hs.begin_raise hk keys rnd

theorem State.Inv.runStep {s t : State} {keys : Keypad} {rnd : Byte} (hs : s.Inv)
    (h : s.runStep keys rnd = .next t) : t.Inv := by
  obtain ⟨-, rfl⟩ | ⟨-, k, rfl, hk⟩ | ⟨hf, hpc, i, -, hexec⟩ := State.runStep_cases s t keys rnd h
  · exact hs.congr rfl rfl rfl rfl rfl fun _ => rfl
  · exact hs.begin_raise hk keys rnd
  · exact hs.exec hf (by omega) hexec

/-- Settles O13: memory lists nothing, the stack is empty and the latch is clear. -/
theorem resetMeetsTheInvariant : Obligations.ResetMeetsTheInvariant where
  mem_wf := ⟨.nil, nofun⟩
  pc_le := by decide
  stack_le := nofun
  fault_sound := nofun
  fault_quiet hf := absurd rfl hf

/-- A program that fits gives the reset state but for its image in memory; one that does not changes only the report. -/
theorem State.Inv.load {s : State} (h : s.Inv) (program : List Byte) : (s.load program).Inv := by
  by_cases hl : program.length ≤ 3584
  · rw [State.load_ok s program hl]
    exact { resetMeetsTheInvariant with mem_wf := Memory.wf_image _ _ program (by omega) }
  · rw [State.load_error s program (by omega)]
    exact h.congr rfl rfl rfl rfl rfl id

/-- Settles O12: a STEP, a TICK and a RESET each keep the invariant. -/
theorem stepKeepsTheInvariant : Obligations.StepKeepsTheInvariant := by
  intro s t hs h
  have hqueue (rest : List CallerOp) : ({ s with pending := rest } : State).Inv :=
    hs.congr rfl rfl rfl rfl rfl id
  obtain ⟨keys, rnd, -, hrun⟩ | ⟨rest, -, rfl⟩ | ⟨program, rest, -, rfl⟩ := step_cases s t h
  · exact hs.dequeue.runStep hrun
  · exact (hqueue rest).tick
  · exact (hqueue rest).load program

/-! ## The state after reset (10_state R41) -/

theorem Memory.unlisted_outside_font (f : Font) (a : Nat) (h : a < 0x050 ∨ 0x09F < a) : Memory.unlisted f a = 0 :=
  if_neg (by omega)

/-- Settles O55: RESET of the empty program loads an empty image. -/
theorem resetStateIsAsStated : Obligations.ResetStateIsAsStated := by
  refine ⟨rfl, rfl, rfl, rfl, rfl, rfl, fun r => ?_, Display.pixel_blank, fun a ha => ?_, ?_⟩
  · simp [State.getV, State.reset]
  · exact Memory.unlisted_outside_font _ a ha
  · exact State.boot_ok _ [] (Nat.zero_le _)

/-! ## The sound timer over TICKs (44_timer_keypad R187, R189) -/

theorem State.soundActive_iff (s : State) : s.soundActive = true ↔ s.st.toNat ≠ 0 := by
  simp [State.soundActive, BitVec.toNat_eq]

/-- With the latch clear, `m` TICKs take `m` from ST, and ST stays at 0 once it is there. -/
theorem State.iterate_tick_st (m : Nat) : ∀ s : State, s.fault = none →
    (State.tick^[m] s).st.toNat = s.st.toNat - m := by
  induction m with
  | zero => intro s _; rfl
  | succ m ih =>
    intro s hf
    have htick : s.tick.st.toNat = s.st.toNat - 1 := by rw [State.tick_running s hf]; exact tickDown_toNat s.st
    have hclear : s.tick.fault = none := by rw [State.tick_running s hf]; exact hf
    rw [Function.iterate_succ_apply, ih s.tick hclear, htick]
    omega

/-- Settles O50. -/
theorem soundIsActiveUntilTheNthTick : Obligations.SoundIsActiveUntilTheNthTick := by
  intro m s hf
  refine ⟨s.soundActive_iff, ?_⟩
  rw [State.soundActive_iff, State.iterate_tick_st m s hf]
  omega

/-! ## Who sees the inputs and ST (10_state R30, R36, R37) -/

/-- The state with another key snapshot, another random byte and another ST. -/
def State.withInputs (s : State) (k : Keypad) (b z : Byte) : State := { s with keys := k, rnd := b, st := z }

section
variable (s : State) (k : Keypad) (b z : Byte)

@[simp] theorem State.withInputs_dataBase : (s.withInputs k b z).dataBase = s.dataBase := rfl
@[simp] theorem State.withInputs_keys : (s.withInputs k b z).keys = k := rfl

theorem State.withInputs_skipIf (c : Bool) : (s.withInputs k b z).skipIf c = (s.skipIf c).withInputs k b z := by
  cases c <;> rfl

variable {s} {t : State}

/-- The range check of an access sees none of them. -/
theorem State.withInputs_accessing {n : Nat} {e : State} (h : s.accessing n e = .next t) :
    (s.withInputs k b z).accessing n (e.withInputs k b z) = .next (t.withInputs k b z) := by
  unfold State.accessing at h ⊢
  rw [State.withInputs_dataBase]
  cases ho : outOfRange s.dataBase n <;> rw [ho] at h <;> cases h <;> rfl

theorem execRet_withInputs (h : execRet s = .next t) :
    execRet (s.withInputs k b z) = .next (t.withInputs k b z) := by
  obtain ⟨rfl, hs⟩ | ⟨a, rest, hs, rfl⟩ := execRet_cases h
  · exact execRet_empty (s.withInputs k b z) hs
  · exact execRet_pop (s.withInputs k b z) a rest hs

theorem execLdF_withInputs {x : Reg} (h : execLdF x s = .next t) :
    execLdF x (s.withInputs k b z) = .next (t.withInputs k b z) := by
  by_cases hv : (s.getV x).toNat > 15
  · rw [execLdF, if_pos hv] at h
    cases h
    exact if_pos hv
  · rw [execLdF, if_neg hv] at h
    cases h
    exact if_neg hv

/-- FX0A sees the key snapshot, and neither the random byte nor ST. -/
theorem execLdVxK_withInputs {x : Reg} (h : execLdVxK x s = .next t) :
    execLdVxK x (s.withInputs s.keys b z) = .next (t.withInputs s.keys b z) := by
  cases h
  rw [execLdVxK, State.withInputs_keys]
  cases lowestPressed s.keys <;> rfl

/-- An instruction but FX18 does the same under every key snapshot, random byte and ST, of which the readers of the keys
see the snapshot and CXNN the byte. -/
theorem exec_withInputs {i : Instr} (h : exec i s = .next t) (hst : ∀ x, i ≠ .ldStVx x)
    (hkeys : k = s.keys ∨ (∀ x, i ≠ .skp x) ∧ (∀ x, i ≠ .sknp x) ∧ ∀ x, i ≠ .ldVxK x)
    (hrnd : b = s.rnd ∨ ∀ x nn, i ≠ .rnd x nn) :
    exec i (s.withInputs k b z) = .next (t.withInputs k b z) := by
  cases i with
  | ret => exact execRet_withInputs k b z h
  | seImm | sneImm | seReg | sneReg => cases h; exact congrArg _ (State.withInputs_skipIf s k b z _)
  | skp x =>
    obtain rfl := hkeys.resolve_right fun ⟨hskp, _, _⟩ => hskp x rfl
    cases h
    exact congrArg _ (State.withInputs_skipIf s _ b z _)
  | sknp x =>
    obtain rfl := hkeys.resolve_right fun ⟨_, hsknp, _⟩ => hsknp x rfl
    cases h
    exact congrArg _ (State.withInputs_skipIf s _ b z _)
  | ldVxK x =>
    obtain rfl := hkeys.resolve_right fun ⟨_, _, hldVxK⟩ => hldVxK x rfl
    exact execLdVxK_withInputs b z h
  | rnd x nn =>
    obtain rfl := hrnd.resolve_right fun hr => hr x nn rfl
    cases h
    rfl
  | ldStVx x => exact absurd rfl (hst x)
  | ldF => exact execLdF_withInputs k b z h
  | ldB | stRegs | ldRegs | drw => exact State.withInputs_accessing k b z h
  | _ => cases h; rfl

end

/-- No instruction writes an input. -/
theorem exec_inputs {i : Instr} {s t : State} (h : exec i s = .next t) : t.keys = s.keys ∧ t.rnd = s.rnd := by
  obtain ⟨k, rfl, -⟩ | ⟨-, -, -, -, hkeys, hrnd, -⟩ := exec_cases i s t h
  · exact ⟨rfl, rfl⟩
  · exact ⟨hkeys, hrnd⟩

/-- Settles O52: each input replaced on its own, the two others left as they were. FX18 overwrites ST and sees no input. -/
theorem inputsAreSeenOnlyByTheirReaders : Obligations.InputsAreSeenOnlyByTheirReaders := by
  intro i s t k b h
  by_cases hi : ∃ x, i = .ldStVx x
  · obtain ⟨x, rfl⟩ := hi
    cases h
    exact ⟨fun _ _ _ => rfl, fun _ => rfl, fun hst => absurd rfl (hst x)⟩
  · have hst : ∀ x, i ≠ .ldStVx x := not_exists.mp hi
    have htst : t.st = s.st := (exec_frame h).st.resolve_right fun ⟨x, hx, _⟩ => hst x hx
    obtain ⟨htkeys, htrnd⟩ := exec_inputs h
    refine ⟨fun hskp hsknp hldVxK => ?_, fun hr => ?_, fun _ => ?_⟩
    · show exec i (s.withInputs k s.rnd s.st) = .next (t.withInputs k t.rnd t.st)
      rw [htrnd, htst]
      exact exec_withInputs k s.rnd s.st h hst (.inr ⟨hskp, hsknp, hldVxK⟩) (.inl rfl)
    · show exec i (s.withInputs s.keys b s.st) = .next (t.withInputs t.keys b t.st)
      rw [htkeys, htst]
      exact exec_withInputs s.keys b s.st h hst (.inl rfl) (.inr hr)
    · show exec i (s.withInputs s.keys s.rnd b) = .next (t.withInputs t.keys t.rnd b)
      rw [htkeys, htrnd]
      exact exec_withInputs s.keys s.rnd b h hst (.inl rfl) (.inl rfl)

end Sys2Proof.Machine

/-! ## The writers of memory, stack and I, and reading after a write (20_memory R58, R60; 10_state R27, R28) -/

namespace Sys2Proof.Machine

/-- Settles O36, from the memory, stack and index clauses of the frame, of which the statement keeps who writes. -/
theorem memoryStackAndIndexHaveTheirWriters : Obligations.MemoryStackAndIndexHaveTheirWriters := by
  intro i s t h
  have frame := exec_frame h
  refine ⟨fun hmem => (frame.mem.resolve_left hmem).1, fun hstack => ?_, frame.idx.resolve_left⟩
  obtain ⟨hret, -⟩ | ⟨nnn, hcall, -⟩ := frame.stack.resolve_left hstack
  · exact .inl hret
  · exact .inr ⟨nnn, hcall⟩

/-- Settles O37: a write inside memory keeps the form, and the rising order of the form makes every read see the
latest write. -/
theorem readReturnsTheLatestWrite : Obligations.ReadReturnsTheLatestWrite := by
  intro f m a b hwf ha
  exact ⟨Memory.wf_write f m a b ha hwf, fun q => Memory.read_write f m a q b hwf.1⟩

end Sys2Proof.Machine

/-! ## Decode and encode are inverse (30_encoding R70 to R76) -/

namespace Sys2Proof

/-- The decoder reads the word of a well-formed instruction as that instruction. -/
theorem decodeWord_encode {i : Instr} (hi : i.wf) : decodeWord (encode i) = some i := by
  cases i with
  | cls => exact Laws.RoundTrip.cls hi
  | ret => exact Laws.RoundTrip.ret hi
  | jp => exact Laws.RoundTrip.jp _ hi
  | call => exact Laws.RoundTrip.call _ hi
  | seImm => exact Laws.RoundTrip.seImm _ _ hi
  | sneImm => exact Laws.RoundTrip.sneImm _ _ hi
  | seReg => exact Laws.RoundTrip.seReg _ _ hi
  | ldImm => exact Laws.RoundTrip.ldImm _ _ hi
  | addImm => exact Laws.RoundTrip.addImm _ _ hi
  | ldReg => exact Laws.RoundTrip.ldReg _ _ hi
  | or => exact Laws.RoundTrip.or _ _ hi
  | and => exact Laws.RoundTrip.and _ _ hi
  | xor => exact Laws.RoundTrip.xor _ _ hi
  | addReg => exact Laws.RoundTrip.addReg _ _ hi
  | sub => exact Laws.RoundTrip.sub _ _ hi
  | shr => exact Laws.RoundTrip.shr _ _ hi
  | subn => exact Laws.RoundTrip.subn _ _ hi
  | shl => exact Laws.RoundTrip.shl _ _ hi
  | sneReg => exact Laws.RoundTrip.sneReg _ _ hi
  | ldI => exact Laws.RoundTrip.ldI _ hi
  | jpV0 => exact Laws.RoundTrip.jpV0 _ hi
  | rnd => exact Laws.RoundTrip.rnd _ _ hi
  | drw => exact Laws.RoundTrip.drw _ _ _ hi
  | skp => exact Laws.RoundTrip.skp _ hi
  | sknp => exact Laws.RoundTrip.sknp _ hi
  | ldVxDt => exact Laws.RoundTrip.ldVxDt _ hi
  | ldVxK => exact Laws.RoundTrip.ldVxK _ hi
  | ldDtVx => exact Laws.RoundTrip.ldDtVx _ hi
  | ldStVx => exact Laws.RoundTrip.ldStVx _ hi
  | addI => exact Laws.RoundTrip.addI _ hi
  | ldF => exact Laws.RoundTrip.ldF _ hi
  | ldB => exact Laws.RoundTrip.ldB _ hi
  | stRegs => exact Laws.RoundTrip.stRegs _ hi
  | ldRegs => exact Laws.RoundTrip.ldRegs _ hi

/-- Settles O1: the bytes of the word are the word again, and the word decodes to the instruction it was made from. -/
theorem decodeOfEncodeIsTheInstruction : Obligations.DecodeOfEncodeIsTheInstruction := by
  intro i rest hi
  rw [encodeBytes, decode_splitWord, decodeWord_encode hi]

section
variable {op : Word} {f : BitVec 4} {i : Instr}

theorem wordNNN_eq_of_fields {nnn : BitVec 12} (hf : fieldF op = f) (hn : fieldNNN op = nnn) :
    wordNNN f nnn = op := by
  rw [← hf, ← hn, wordNNN_fields]

theorem wordXNN_eq_of_fields {nn : Byte} (hf : fieldF op = f) (hn : fieldNN op = nn) :
    wordXNN f (regBits (fieldX op)) nn = op := by
  rw [← hf, ← hn, wordXNN_fields]

theorem wordXYN_eq_of_fields {n : BitVec 4} (hf : fieldF op = f) (hn : fieldN op = n) :
    wordXYN f (regBits (fieldX op)) (regBits (fieldY op)) n = op := by
  rw [← hf, ← hn, wordXYN_fields]

theorem encode_of_decodeFamily0 (hf : fieldF op = 0x0) (h : decodeFamily0 op = some i) : i.wf ∧ encode i = op := by
  unfold decodeFamily0 at h
  split at h <;> cases h <;> exact ⟨by decide, wordNNN_eq_of_fields hf ‹_›⟩

theorem encode_of_decodeFamily5 (hf : fieldF op = 0x5) (h : decodeFamily5 op = some i) : i.wf ∧ encode i = op := by
  unfold decodeFamily5 at h
  split at h <;> cases h
  exact ⟨Nat.zero_lt_succ _, wordXYN_eq_of_fields hf ‹_›⟩

theorem encode_of_decodeFamily8 (hf : fieldF op = 0x8) (h : decodeFamily8 op = some i) : i.wf ∧ encode i = op := by
  unfold decodeFamily8 at h
  split at h <;> cases h <;> exact ⟨Nat.zero_lt_succ _, wordXYN_eq_of_fields hf ‹_›⟩

theorem encode_of_decodeFamily9 (hf : fieldF op = 0x9) (h : decodeFamily9 op = some i) : i.wf ∧ encode i = op := by
  unfold decodeFamily9 at h
  split at h <;> cases h
  exact ⟨Nat.zero_lt_succ _, wordXYN_eq_of_fields hf ‹_›⟩

theorem encode_of_decodeFamilyE (hf : fieldF op = 0xE) (h : decodeFamilyE op = some i) : i.wf ∧ encode i = op := by
  unfold decodeFamilyE at h
  split at h <;> cases h <;> exact ⟨Nat.zero_lt_succ _, wordXNN_eq_of_fields hf ‹_›⟩

/-- FX55 and FX65 carry X as a count, which fits its field; the others carry a register number. -/
theorem encode_of_decodeFamilyF (hf : fieldF op = 0xF) (h : decodeFamilyF op = some i) : i.wf ∧ encode i = op := by
  unfold decodeFamilyF at h
  split at h <;> cases h <;> exact ⟨by simp [Instr.wf, Instr.count], wordXNN_eq_of_fields hf ‹_›⟩

/-- A word that decodes is the encoding of the instruction it decodes to. Branch `h_k` of the decoder is
that of the leading nibble k - 1. -/
theorem encode_of_decodeWord (h : decodeWord op = some i) : i.wf ∧ encode i = op := by
  unfold decodeWord at h
  split at h
  case h_1 hf => exact encode_of_decodeFamily0 hf h
  case h_2 hf | h_3 hf | h_11 hf | h_12 hf =>
    cases h
    exact ⟨Nat.zero_lt_succ _, wordNNN_eq_of_fields hf rfl⟩
  case h_4 hf | h_5 hf | h_7 hf | h_8 hf | h_13 hf =>
    cases h
    exact ⟨Nat.zero_lt_succ _, wordXNN_eq_of_fields hf rfl⟩
  case h_6 hf => exact encode_of_decodeFamily5 hf h
  case h_9 hf => exact encode_of_decodeFamily8 hf h
  case h_10 hf => exact encode_of_decodeFamily9 hf h
  case h_14 hf =>
    cases h
    refine ⟨(fieldN op).isLt, ?_⟩
    rw [encode, BitVec.ofNat_toNat, BitVec.setWidth_eq]
    exact wordXYN_eq_of_fields hf rfl
  case h_15 hf => exact encode_of_decodeFamilyE hf h
  case h_16 hf => exact encode_of_decodeFamilyF hf h
  case h_17 => cases h

end

/-- Settles O2, branch by branch of the decoder: each builds the instruction from fields that make up the whole word. -/
theorem encodeOfDecodeIsTheWord : Obligations.EncodeOfDecodeIsTheWord :=
  fun _ _ => encode_of_decodeWord

/-! ## The opcode map (30_encoding R76, R78) -/

theorem Instr.opRow_mem_opcodeMap (i : Instr) : i.opRow ∈ opcodeMap := by
  cases i <;> simp [Instr.opRow, opcodeMap]

/-- Every row stands for an instruction: its match, taken as a word, decodes to one. -/
theorem exists_opRow_eq {r : OpRow} (hr : r ∈ opcodeMap) : ∃ i : Instr, i.opRow = r := by
  have hdecodes : ∀ r ∈ opcodeMap, (decodeWord r.pattern).map Instr.opRow = some r := by decide
  obtain ⟨i, -, hi⟩ := Option.map_eq_some_iff.mp (hdecodes r hr)
  exact ⟨i, hi⟩

section
variable {op : Word} {r : OpRow} (hs : r.selects op)
include hs

/-- Every mask keeps the leading nibble. -/
theorem OpRow.selects.fieldF_eq (hr : r ∈ opcodeMap) : fieldF op = fieldF r.pattern := by
  have hmask : ∀ r ∈ opcodeMap, fieldF r.mask = BitVec.allOnes 4 := by decide
  rw [← hs, fieldF_and, hmask r hr, BitVec.and_allOnes]

/-- The mask of the format R keeps N. -/
theorem OpRow.selects.fieldN_eq (hm : r.mask = 0xF00F) : fieldN op = fieldN r.pattern := by
  rw [← hs, hm, fieldN_and, show fieldN 0xF00F = BitVec.allOnes 4 from by decide, BitVec.and_allOnes]

/-- The mask of the format S keeps NN. -/
theorem OpRow.selects.fieldNN_eq (hm : r.mask = 0xF0FF) : fieldNN op = fieldNN r.pattern := by
  rw [← hs, hm, fieldNN_and, show fieldNN 0xF0FF = BitVec.allOnes 8 from by decide, BitVec.and_allOnes]

end

@[simp] theorem fieldF_ofNat (n : Nat) : fieldF (BitVec.ofNat 16 n) = BitVec.ofNat 4 (n / 4096) := by
  apply BitVec.eq_of_toNat_eq
  rw [fieldF_toNat, BitVec.toNat_ofNat, BitVec.toNat_ofNat]
  omega

@[simp] theorem fieldN_ofNat (n : Nat) : fieldN (BitVec.ofNat 16 n) = BitVec.ofNat 4 n := by
  apply BitVec.eq_of_toNat_eq
  rw [fieldN_toNat, BitVec.toNat_ofNat, BitVec.toNat_ofNat]
  omega

@[simp] theorem fieldNN_ofNat (n : Nat) : fieldNN (BitVec.ofNat 16 n) = BitVec.ofNat 8 n := by
  apply BitVec.eq_of_toNat_eq
  rw [fieldNN_toNat, BitVec.toNat_ofNat, BitVec.toNat_ofNat]
  omega

/-- A word that an instruction's row selects decodes to an instruction of that row: the leading nibble, and N or NN
where the format has them in its mask, choose the decoder's branch. -/
theorem decodeWord_of_opRow_selects {i : Instr} {op : Word} (h : i.opRow.selects op) :
    (decodeWord op).map Instr.opRow = some i.opRow := by
  have hf : fieldF op = fieldF i.opRow.pattern := OpRow.selects.fieldF_eq h i.opRow_mem_opcodeMap
  cases i with
  | cls | ret =>
    obtain rfl := (BitVec.and_allOnes (x := op)).symm.trans h
    decide
  | jp | call | seImm | sneImm | ldImm | addImm | ldI | jpV0 | rnd | drw => simp [decodeWord, hf, Instr.opRow]
  | seReg =>
    have hn := OpRow.selects.fieldN_eq h rfl
    simp [decodeWord, hf, decodeFamily5, hn, Instr.opRow]
  | ldReg | or | and | xor | addReg | sub | shr | subn | shl =>
    have hn := OpRow.selects.fieldN_eq h rfl
    simp [decodeWord, hf, decodeFamily8, hn, Instr.opRow]
  | sneReg =>
    have hn := OpRow.selects.fieldN_eq h rfl
    simp [decodeWord, hf, decodeFamily9, hn, Instr.opRow]
  | skp | sknp =>
    have hn := OpRow.selects.fieldNN_eq h rfl
    simp [decodeWord, hf, decodeFamilyE, hn, Instr.opRow]
  | ldVxDt | ldVxK | ldDtVx | ldStVx | addI | ldF | ldB | stRegs | ldRegs =>
    have hn := OpRow.selects.fieldNN_eq h rfl
    simp [decodeWord, hf, decodeFamilyF, hn, Instr.opRow]

/-- A word that a row of the map selects decodes to an instruction of that row. -/
theorem decodeWord_of_selects {r : OpRow} {op : Word} (hr : r ∈ opcodeMap) (h : r.selects op) :
    (decodeWord op).map Instr.opRow = some r := by
  obtain ⟨i, rfl⟩ := exists_opRow_eq hr
  exact decodeWord_of_opRow_selects h

/-- The encoding of an instruction is a word of its row, whatever the operands: each mask keeps the leading nibble, and
N or NN where the encoder fixes them. -/
theorem opRow_selects_encode (i : Instr) : i.opRow.selects (encode i) := by
  cases i with
  | cls | ret => decide
  | jp | call | ldI | jpV0 =>
    refine (and_F000 _).trans ?_
    rw [encode, fieldF_wordNNN]
    rfl
  | seImm | sneImm | ldImm | addImm | rnd =>
    refine (and_F000 _).trans ?_
    rw [encode, fieldF_wordXNN]
    rfl
  | drw =>
    refine (and_F000 _).trans ?_
    rw [encode, fieldF_wordXYN]
    rfl
  | seReg | ldReg | or | and | xor | addReg | sub | shr | subn | shl | sneReg =>
    refine (and_F00F _).trans ?_
    rw [encode, fieldF_wordXYN, fieldN_wordXYN]
    rfl
  | skp | sknp | ldVxDt | ldVxK | ldDtVx | ldStVx | addI | ldF | ldB | stRegs | ldRegs =>
    refine (and_F0FF _).trans ?_
    rw [encode, fieldF_wordXNN, fieldNN_wordXNN]
    rfl

/-- The row of the instruction a word decodes to selects the word. -/
theorem opRow_selects_of_decodeWord {op : Word} {i : Instr} (h : decodeWord op = some i) : i.opRow.selects op := by
  obtain ⟨-, rfl⟩ := encode_of_decodeWord h
  exact opRow_selects_encode i

/-- Settles O3: the row of the decoded instruction selects the word, and a row that selects a word is the row of the
instruction the word decodes to. -/
theorem decoderFollowsTheOpcodeMap : Obligations.DecoderFollowsTheOpcodeMap := by
  refine ⟨fun op i h => ⟨i.opRow_mem_opcodeMap, opRow_selects_of_decodeWord h, fun r hr hs => ?_⟩,
    fun op => ⟨fun h r hr hs => ?_, fun h => ?_⟩⟩
  · have hrow := decodeWord_of_selects hr hs
    rw [h] at hrow
    exact (Option.some.inj hrow).symm
  · have hrow := decodeWord_of_selects hr hs
    rw [h] at hrow
    cases hrow
  · refine Option.eq_none_iff_forall_ne_some.mpr fun i hd => ?_
    exact h i.opRow i.opRow_mem_opcodeMap (opRow_selects_of_decodeWord hd)

end Sys2Proof

/-! ## The STEP procedure (30_encoding R73) -/

namespace Sys2Proof

/-- What decodes from two bytes or more is the word of the first two. -/
theorem decodeWord_of_decode {hi lo : Byte} {bs rest : List Byte} {i : Instr}
    (h : decode (hi :: lo :: bs) = .ok (i, rest)) : decodeWord (joinBytes hi lo) = some i := by
  cases hd : decodeWord (joinBytes hi lo) with
  | none => simp [decode, hd] at h
  | some j =>
    obtain ⟨rfl, -⟩ : j = i ∧ bs = rest := by simpa [decode, hd] using h
    rfl

end Sys2Proof

namespace Sys2Proof.Machine

/-- Taking an operation from the queue shortens it, or, where it is empty, takes a free input (log 2, log 3). -/
theorem State.dequeue_eq (s : State) :
    s.dequeue = { s with
      pending := s.pending.tail
      draws := if s.pending = [] then s.draws + 1 else s.draws } := by
  unfold State.dequeue
  split
  next hp => simp [hp]
  next hp => simp [hp]

/-- With the latch clear and the fetch in range, a STEP runs the instruction its word decodes to. -/
theorem step_of_decodeWord {s : State} {keys : Keypad} {rnd : Byte} {i : Instr} (hstep : s.nextIsStep keys rnd)
    (hf : s.fault = none) (hpc : s.pc.toNat + 1 ≤ 0xFFF) (hd : decodeWord (s.wordAt s.pc.toNat) = some i) :
    step s = exec i (s.dequeue.begin keys rnd) := by
  rw [step_of_nextIsStep s keys rnd hstep, State.dequeue_eq]
  exact State.runStep_ok _ keys rnd i hf hpc hd

/-- The state an instruction starts from differs in the pc, the inputs, the results and the queue. -/
theorem State.begin_dequeue_unchanged (s : State) (keys : Keypad) (rnd : Byte) :
    UnchangedExcept [.pc, .updated, .rest] s (s.dequeue.begin keys rnd) := by
  intro p hp
  rw [State.dequeue_eq]
  cases p with
  | pc | updated | rest => simp at hp
  | v => exact fun _ => rfl
  | mem => exact fun _ => rfl
  | fb => exact fun _ _ => rfl
  | _ => rfl

/-- Settles O5, by the state the STEP has dequeued and begun. -/
theorem stepRunsTheDecodedInstruction : Obligations.StepRunsTheDecodedInstruction := by
  intro s keys rnd i hstep hf hpc hd
  refine ⟨s.dequeue.begin keys rnd, step_of_decodeWord hstep hf hpc (decodeWord_of_decode hd), ?_⟩
  have hunchanged := s.begin_dequeue_unchanged keys rnd
  rw [State.dequeue_eq] at hunchanged ⊢
  exact ⟨rfl, rfl, rfl, rfl, rfl, rfl, rfl, rfl, hunchanged⟩

/-- Settles O6: the bytes decode to the instruction they encode. -/
theorem stepRunsTheEncodedInstruction : Obligations.StepRunsTheEncodedInstruction := by
  intro s keys rnd i hstep hf hpc hi hbytes
  refine step_of_decodeWord hstep hf hpc (decodeWord_of_decode (bs := []) (rest := []) ?_)
  rw [hbytes, ← List.append_nil (encodeBytes i)]
  exact decodeOfEncodeIsTheInstruction i [] hi

end Sys2Proof.Machine

/-! ## Control transfer (40_flow R100 to R107) and the idle end of a run (00_scope R12) -/

namespace Sys2Proof.Machine

section
variable {s t : State}

/-- The fetched word depends on the memory and the font alone. -/
theorem State.wordAt_congr (hm : t.mem = s.mem) (hp : t.params = s.params) (a : Nat) : t.wordAt a = s.wordAt a := by
  unfold State.wordAt
  rw [State.readByte_congr s t hm hp, State.readByte_congr s t hm hp]

/-- With the latch clear, to be idle is a property of the core. -/
theorem State.idle.of_sameCore (hs : s.idle) (hcore : SameCore s t) (hf : t.fault = none) : t.idle := by
  obtain ⟨-, hpc, hword⟩ := hs
  obtain ⟨-, -, hpceq, -, -, -, hmem, -, hparams⟩ := hcore
  refine ⟨hf, ?_, ?_⟩
  · rwa [hpceq]
  · rwa [State.wordAt_congr hmem hparams, hpceq]

/-- A jump back undoes the advance of the STEP it belongs to. -/
theorem State.sameCore_jump_pc (s : State) (keys : Keypad) (rnd : Byte) :
    SameCore s ((s.dequeue.begin keys rnd).jump s.pc) := by
  rw [State.dequeue_eq]
  exact ⟨rfl, rfl, rfl, rfl, rfl, rfl, rfl, rfl, rfl⟩

/-- A STEP at an idle state is the jump to the pc. -/
theorem step_of_idle {keys : Keypad} {rnd : Byte} (hstep : s.nextIsStep keys rnd) (hidle : s.idle) :
    step s = .next ((s.dequeue.begin keys rnd).jump s.pc) := by
  obtain ⟨hf, hpc, nnn, hd, htarget⟩ := hidle
  rw [step_of_decodeWord hstep hf (by omega) hd, ← htarget]
  rfl

end

/-- Settles O56: the STEP jumps to where it was fetched from, and a state with the same core is still idle. -/
theorem selfJumpIsAFixedPoint : Obligations.SelfJumpIsAFixedPoint := by
  intro s keys rnd hstep hidle
  have hcore := s.sameCore_jump_pc keys rnd
  have hfault : ((s.dequeue.begin keys rnd).jump s.pc).fault = none := by
    rw [State.dequeue_eq]
    exact hidle.1
  exact ⟨_, step_of_idle hstep hidle, hcore, hidle.of_sameCore hcore hfault, rfl⟩

section
variable {s : State}

theorem Piece.same_refl (p : Piece) (s : State) : p.same s s := by
  cases p with
  | v | mem => exact fun _ => rfl
  | fb => exact fun _ _ => rfl
  | rest => exact ⟨rfl, rfl, rfl, rfl, rfl, rfl⟩
  | _ => rfl

theorem UnchangedExcept.refl (s : State) : UnchangedExcept [] s s := fun p _ => p.same_refl s

theorem State.jump_unchanged (a : Word) : UnchangedExcept [.pc] s (s.jump a) := by
  intro p hp
  have hsame := p.same_refl s
  cases p with
  | pc => simp at hp
  | _ => exact hsame

theorem State.jump_withStack_unchanged (stack : List Word) (a : Word) :
    UnchangedExcept [.pc, .stack] s ({ s with stack := stack }.jump a) := by
  intro p hp
  have hsame := p.same_refl s
  cases p with
  | pc | stack => simp at hp
  | _ => exact hsame

theorem State.skipIf_unchanged (c : Bool) : UnchangedExcept [.pc] s (s.skipIf c) := by
  cases c with
  | false => exact fun p _ => p.same_refl s
  | true => exact State.jump_unchanged (s.pc + 2)

theorem State.raise_unchanged (k : Fatal) : UnchangedExcept [.pc, .fault, .updated] s (s.raise k) := by
  intro p hp
  have hsame := p.same_refl s
  cases p with
  | pc | fault | updated => simp at hp
  | _ => exact hsame

/-- An instruction that ends in `raise` raises (R205). -/
theorem raises_of_exec_eq_raise {i : Instr} {k : Fatal} (h : exec i s = .next (s.raise k)) : Raises i s k :=
  ⟨_, h, rfl, rfl, rfl, State.raise_unchanged k⟩

/-- The return undoes the call: it pops the address the call pushed (R100, R102). -/
theorem exec_ret_after_call (a : Word) : exec .ret ((s.push s.pc).jump a).advance = .next s :=
  execRet_pop ((s.push s.pc).jump a).advance s.pc s.stack rfl

/-- The sum of R103 stays below 2^16. -/
theorem zextNNN_add_zextByte_toNat (nnn : BitVec 12) (b : Byte) :
    (zextNNN nnn + zextByte b).toNat = nnn.toNat + b.toNat := by
  have hn := nnn.isLt
  have hb := b.isLt
  rw [BitVec.toNat_add, zextNNN_toNat, zextByte_toNat]
  omega

theorem State.skipIf_pc_toNat (c : Bool) :
    (s.skipIf c).pc.toNat = if c then (s.pc.toNat + 2) % 65536 else s.pc.toNat := by
  rw [State.skipIf_pc, apply_ite BitVec.toNat, BitVec.toNat_add]
  rfl

/-- What a skip on two equal bytes does (R104, R106). -/
theorem completes_of_skipIf_beq {i : Instr} {a b : Byte} (h : exec i s = .next (s.skipIf (a == b))) :
    Completes i s fun t => UnchangedExcept [.pc] s t ∧
      t.pc.toNat = if a.toNat = b.toNat then (s.pc.toNat + 2) % 65536 else s.pc.toNat := by
  refine ⟨_, h, State.skipIf_unchanged _, ?_⟩
  simp only [State.skipIf_pc_toNat, beq_iff_eq, BitVec.toNat_inj]

/-- What a skip on two different bytes does (R105, R107). -/
theorem completes_of_skipIf_bne {i : Instr} {a b : Byte} (h : exec i s = .next (s.skipIf (a != b))) :
    Completes i s fun t => UnchangedExcept [.pc] s t ∧
      t.pc.toNat = if a.toNat = b.toNat then s.pc.toNat else (s.pc.toNat + 2) % 65536 := by
  refine ⟨_, h, State.skipIf_unchanged _, ?_⟩
  simp only [State.skipIf_pc_toNat, bne_iff_ne, BitVec.toNat_inj, ite_not]

end

/-- Settles O16: each is a jump to NNN, 2NNN after a push. -/
theorem jumpAndCallGoToTheirTarget : Obligations.JumpAndCallGoToTheirTarget := by
  intro nnn s
  refine ⟨rfl, rfl, ?_, ?_⟩
  · exact ⟨s.jump (zextNNN nnn), rfl, zextNNN_toNat nnn, State.jump_unchanged _⟩
  · exact ⟨(s.push s.pc).jump (zextNNN nnn), rfl, zextNNN_toNat nnn, rfl, State.jump_withStack_unchanged _ _⟩

/-- Settles O17: the sum of a 12-bit and an 8-bit number is the jump's target. -/
theorem jumpWithOffsetAddsRegisterZero : Obligations.JumpWithOffsetAddsRegisterZero := fun nnn s =>
  ⟨s.jump (zextNNN nnn + zextByte (s.getV 0)), rfl, zextNNN_add_zextByte_toNat nnn _, State.jump_unchanged _⟩

/-- Settles O18, by the two cases of the stack. -/
theorem returnPopsOrIsFatal : Obligations.ReturnPopsOrIsFatal := by
  refine fun s => ⟨fun a rest hs => ?_, fun hs => ?_⟩
  · exact ⟨_, execRet_pop s a rest hs, rfl, rfl, State.jump_withStack_unchanged rest a⟩
  · exact raises_of_exec_eq_raise (execRet_empty s hs)

/-- Settles O19: the return answers the very state the call started from. -/
theorem callThenReturnRestores : Obligations.CallThenReturnRestores := fun nnn s =>
  ⟨(s.push s.pc).jump (zextNNN nnn), rfl, s, exec_ret_after_call _, UnchangedExcept.refl s⟩

/-- Settles O20: 3XNN and 5XY0 skip on equal bytes, 4XNN and 9XY0 on different ones. -/
theorem registerSkipsFollowTheirCondition : Obligations.RegisterSkipsFollowTheirCondition := by
  intro x y nn s
  refine ⟨rfl, rfl, rfl, rfl, ?seImm, ?sneImm, ?seReg, ?sneReg⟩
  case seImm | seReg => exact completes_of_skipIf_beq rfl
  case sneImm | sneReg => exact completes_of_skipIf_bne rfl

end Sys2Proof.Machine

/-! ## Registers and the ALU (41_alu R120 to R133) -/

namespace Sys2Proof.Machine

section
variable {s t : State} {i : Instr} {x : Reg} {b : Byte}

theorem Completes.imp {P Q : State → Prop} (h : Completes i s P) (hPQ : ∀ t, P t → Q t) : Completes i s Q := by
  obtain ⟨t, hexec, hP⟩ := h
  exact ⟨t, hexec, hPQ t hP⟩

theorem State.setV_unchanged (x : Reg) (b : Byte) : UnchangedExcept [.v] s (s.setV x b) := by
  intro p hp
  have hsame := p.same_refl s
  cases p with
  | v => simp at hp
  | _ => exact hsame

/-- Both writes of R127 are writes of registers. -/
theorem State.setResult_unchanged (x : Reg) (b : Byte) (f : Bool) : UnchangedExcept [.v] s (s.setResult x b f) := by
  intro p hp
  have hsame := State.setV_unchanged (s := s) x b p hp
  cases p with
  | v => simp at hp
  | _ => exact hsame

/-- A flag byte in x[15] says what its bit says (R21). -/
theorem flagSays_of_getV_eq_flagByte {f : Bool} {p : Prop} (hv : t.getV regF = flagByte f) (hf : f = true ↔ p) :
    FlagSays t p := by
  cases f with
  | true => exact .inl ⟨hf.mp rfl, hv⟩
  | false => exact .inr ⟨fun hp => Bool.false_ne_true (hf.mpr hp), hv⟩

/-- What an instruction does that only writes x[X] (R120 to R126). -/
theorem completes_of_setV (h : exec i s = .next (s.setV x b)) :
    Completes i s fun t => UnchangedExcept [.v] s t ∧ ∀ r, t.getV r = if r = x then b else s.getV r :=
  ⟨_, h, State.setV_unchanged x b, fun r => State.getV_setV s x r b⟩

/-- What an instruction does that writes a number to x[X], then a flag (R127): the flag replaces the result where
X = 15. -/
theorem completes_of_setResult {f : Bool} {p : Prop} {n : Nat} (h : exec i s = .next (s.setResult x b f))
    (hf : f = true ↔ p) (hb : b.toNat = n) :
    Completes i s fun t => UnchangedExcept [.v] s t ∧ FlagSays t p ∧
      ∀ r, r ≠ regF → (t.getV r).toNat = if r = x then n else (s.getV r).toNat := by
  have hread := fun r => State.getV_setResult s x r b f
  refine ⟨_, h, State.setResult_unchanged x b f, flagSays_of_getV_eq_flagByte ?_ hf, fun r hr => ?_⟩
  · rw [hread, if_pos rfl]
  · rw [hread, if_neg hr, apply_ite BitVec.toNat, hb]

/-- What an instruction does that writes a byte to x[X] whose every bit is `op` of the bits of x[X] and x[Y] (R126). -/
theorem completes_of_bitwise {y : Reg} {op : Bool → Bool → Bool} (h : exec i s = .next (s.setV x b))
    (hb : ∀ k, b.getLsbD k = op ((s.getV x).getLsbD k) ((s.getV y).getLsbD k)) :
    Completes i s fun t => UnchangedExcept [.v] s t ∧ ∀ r, ∀ k < 8, (t.getV r).getLsbD k =
      if r = x then op ((s.getV x).getLsbD k) ((s.getV y).getLsbD k) else (s.getV r).getLsbD k := by
  refine (completes_of_setV h).imp fun t ⟨hsame, hv⟩ => ⟨hsame, fun r k _ => ?_⟩
  rw [hv, apply_ite (BitVec.getLsbD · k), hb]

end

section
variable (a b : Byte)

/-- Nine bits hold the sum of two bytes (R128). -/
theorem sum9_toNat : (sum9 a b).toNat = a.toNat + b.toNat := by
  have ha := a.isLt
  have hb := b.isLt
  simp only [sum9, BitVec.toNat_add, BitVec.toNat_setWidth]
  omega

theorem sum9_low_toNat : ((sum9 a b).extractLsb' 0 8).toNat = (a.toNat + b.toNat) % 256 := by
  rw [BitVec.extractLsb'_toNat, sum9_toNat, Nat.shiftRight_zero]

/-- Bit 8 is the highest of the nine: it is set when the sum is in their upper half. -/
theorem carryOut_iff : carryOut a b = true ↔ a.toNat + b.toNat > 255 := by
  have hmsb : carryOut a b = (sum9 a b).msb := (BitVec.msb_eq_getLsbD_last _).symm
  rw [hmsb, BitVec.msb_eq_decide, sum9_toNat, decide_eq_true_iff]
  omega

theorem lowBit_iff : lowBit a = true ↔ a.toNat % 2 = 1 := by
  rw [lowBit, BitVec.getLsbD, Nat.testBit_zero, decide_eq_true_iff]

theorem highBit_iff : highBit a = true ↔ a.toNat ≥ 128 := by
  have hmsb : highBit a = a.msb := (BitVec.msb_eq_getLsbD_last _).symm
  rw [hmsb, BitVec.msb_eq_decide, decide_eq_true_iff]

theorem shiftRight_one_toNat : (a >>> 1).toNat = a.toNat / 2 := by
  rw [BitVec.toNat_ushiftRight, Nat.shiftRight_one]

theorem shiftLeft_one_toNat : (a <<< 1).toNat = a.toNat * 2 % 256 := by
  rw [BitVec.toNat_shiftLeft, Nat.shiftLeft_eq, pow_one]

end

/-- Settles O23: the low byte of the 9-bit sum, then its bit 8. -/
theorem addWritesSumThenCarry : Obligations.AddWritesSumThenCarry := fun _ _ _ =>
  ⟨rfl, completes_of_setResult rfl (carryOut_iff _ _) (sum9_low_toNat _ _)⟩

/-- Settles O25: halving with bit 0, doubling with bit 7; neither meaning reads Y. -/
theorem shiftsWriteResultThenBitOut : Obligations.ShiftsWriteResultThenBitOut := by
  intro x y s
  refine ⟨rfl, rfl, fun z => ⟨rfl, rfl⟩, ?shr, ?shl⟩
  case shr => exact completes_of_setResult rfl (lowBit_iff _) (shiftRight_one_toNat _)
  case shl => exact completes_of_setResult rfl (highBit_iff _) (shiftLeft_one_toNat _)

/-- Settles O21: each is one write of x[X]. -/
theorem movesAndAddImmediate : Obligations.MovesAndAddImmediate := by
  intro x y nn s
  refine ⟨rfl, rfl, rfl, ?ldImm, ?addImm, ?ldReg⟩
  case ldImm | ldReg => exact completes_of_setV rfl
  case addImm =>
    refine (completes_of_setV rfl).imp fun t ⟨hsame, hv⟩ => ⟨hsame, fun r => ?_⟩
    rw [hv, apply_ite BitVec.toNat, BitVec.toNat_add]

/-- Settles O22: each bit of the result is the operation on the two bits. -/
theorem bitwiseOperationsActBitByBit : Obligations.BitwiseOperationsActBitByBit := fun _ _ _ =>
  ⟨completes_of_bitwise rfl fun _ => BitVec.getLsbD_or,
    completes_of_bitwise rfl fun _ => BitVec.getLsbD_and,
    completes_of_bitwise rfl fun _ => BitVec.getLsbD_xor⟩

end Sys2Proof.Machine

/-! ## Index register and memory instructions (42_index_memory R150 to R155) -/

namespace Sys2Proof.Machine

section
variable {s : State}

theorem State.withIdx_unchanged (a : Word) : UnchangedExcept [.idx] s { s with idx := a } := by
  intro p hp
  have hsame := p.same_refl s
  cases p with
  | idx => simp at hp
  | _ => exact hsame

theorem State.withIdx_setFlag_unchanged (a : Word) (f : Bool) :
    UnchangedExcept [.idx, .v] s ({ s with idx := a }.setFlag f) := by
  intro p hp
  have hsame := p.same_refl s
  cases p with
  | idx | v => simp at hp
  | _ => exact hsame

theorem State.withV_unchanged (v : Regs) : UnchangedExcept [.v] s { s with v := v } := by
  intro p hp
  have hsame := p.same_refl s
  cases p with
  | v => simp at hp
  | _ => exact hsame

theorem State.storeBytes_unchanged (a : Nat) (bs : List Byte) : UnchangedExcept [.mem] s (s.storeBytes a bs) := by
  intro p hp
  have hsame := p.same_refl s
  cases p with
  | mem => simp at hp
  | _ => exact hsame

end

section
variable (a : Word) (b : Byte)

/-- Seventeen bits hold the sum of a word and a byte (R151). -/
theorem sum17_toNat : (sum17 a b).toNat = a.toNat + b.toNat := by
  have ha := a.isLt
  have hb := b.isLt
  simp only [sum17, BitVec.toNat_add, BitVec.toNat_setWidth]
  omega

theorem sum17_low_toNat : ((sum17 a b).extractLsb' 0 16).toNat = (a.toNat + b.toNat) % 65536 := by
  rw [BitVec.extractLsb'_toNat, sum17_toNat, Nat.shiftRight_zero]

/-- Bit 16 is the highest of the seventeen: it is set when the sum is in their upper half. -/
theorem indexOverflow_iff : indexOverflow a b = true ↔ a.toNat + b.toNat > 65535 := by
  have hmsb : indexOverflow a b = (sum17 a b).msb := (BitVec.msb_eq_getLsbD_last _).symm
  rw [hmsb, BitVec.msb_eq_decide, sum17_toNat, decide_eq_true_iff]
  omega

/-- No glyph address leaves the 16 bits of I, whatever the byte. -/
theorem glyphAddress_toNat : (0x050 + 5 * zextByte b).toNat = 0x050 + 5 * b.toNat := by
  have hb := b.isLt
  rw [BitVec.toNat_add, BitVec.toNat_mul, zextByte_toNat]
  simp only [BitVec.reduceToNat]
  omega

end

/-- Settles O29: I gets NNN, and the low 16 bits of the 17-bit sum with its bit 16 as the flag. -/
theorem indexLoadAndAdd : Obligations.IndexLoadAndAdd := by
  intro nnn x s
  refine ⟨rfl, rfl, ?ldI, ?addI⟩
  case ldI => exact ⟨{ s with idx := zextNNN nnn }, rfl, zextNNN_toNat nnn, State.withIdx_unchanged _⟩
  case addI =>
    have hread := State.getV_setFlag { s with idx := (sum17 s.idx (s.getV x)).extractLsb' 0 16 }
    refine ⟨_, rfl, State.withIdx_setFlag_unchanged _ _, sum17_low_toNat _ _, ?flag, fun r hr => ?others⟩
    case flag => exact flagSays_of_getV_eq_flagByte ((hread _ _).trans (if_pos rfl)) (indexOverflow_iff _ _)
    case others => exact (hread _ _).trans (if_neg hr)

/-- Settles O30, by the two cases of the range check on the register's value. -/
theorem fontAddressOrFatal : Obligations.FontAddressOrFatal := by
  refine fun x s => ⟨fun hle => ?_, fun hgt => raises_of_exec_eq_raise (if_pos hgt)⟩
  exact ⟨_, if_neg (by omega), glyphAddress_toNat _, State.withIdx_unchanged _⟩

section
variable {s : State}

/-- After a store the k-th byte stored stands at `a + k`. -/
theorem State.readByte_storeBytes (hwf : Memory.wf s.params.font s.mem) (a k : Nat) (bs : List Byte)
    (hk : k < bs.length) : (s.storeBytes a bs).readByte (a + k) = bs[k] := by
  refine (Memory.read_writeBytes _ bs s.mem a (a + k) hwf.1).trans ?_
  simp [hk]

/-- A store changes no byte outside its range. -/
theorem State.readByte_storeBytes_outside (hwf : Memory.wf s.params.font s.mem) (a q : Nat) (bs : List Byte)
    (hq : ¬ (a ≤ q ∧ q < a + bs.length)) : (s.storeBytes a bs).readByte q = s.readByte q := by
  refine (Memory.read_writeBytes _ bs s.mem a q hwf.1).trans ?_
  split
  next h =>
    rw [List.getElem?_eq_none (by omega)]
    rfl
  next => rfl

/-- What an instruction does that stores bytes from I on, all of them inside memory (R153, R154). -/
theorem completes_of_storing {i : Instr} {bs : List Byte}
    (h : exec i s = s.accessing bs.length (s.storeBytes s.dataBase bs))
    (hwf : Memory.wf s.params.font s.mem) (hin : s.dataBase + bs.length ≤ 0x1000) :
    Completes i s fun t => UnchangedExcept [.mem] s t ∧
      (∀ k (hk : k < bs.length), t.readByte (s.dataBase + k) = bs[k]) ∧
      ∀ a, ¬ (s.dataBase ≤ a ∧ a < s.dataBase + bs.length) → t.readByte a = s.readByte a :=
  ⟨_, h.trans (State.accessing_in s _ _ (.inr hin)), State.storeBytes_unchanged _ _,
    fun k hk => State.readByte_storeBytes hwf _ k bs hk,
    fun a ha => State.readByte_storeBytes_outside hwf _ a bs ha⟩

/-- A well-formed FX55 stores `last + 1` bytes (R154). -/
theorem State.length_take_v (s : State) {last : Nat} (hlast : (Instr.stRegs last).wf) :
    (s.v.toList.take (last + 1)).length = last + 1 := by
  rw [List.length_take, Vector.length_toList]
  exact Nat.min_eq_left hlast

theorem State.getElem_take_v (s : State) {n : Nat} (r : Reg) (hr : r.val < (s.v.toList.take n).length) :
    (s.v.toList.take n)[r.val] = s.getV r := by
  rw [List.getElem_take, Vector.getElem_toList]
  rfl

/-- A loaded register reads as the byte of its number in the block, and a register past the block as before (R155). -/
theorem Regs.getElem_load_readBytes (a n : Nat) (r : Reg) :
    (Regs.load s.v 0 (s.readBytes a n))[r] = if r.val < n then s.readByte (a + r.val) else s.getV r := by
  rw [Regs.getElem_load, if_pos (Nat.zero_le _), Nat.sub_zero, State.readBytes, Memory.getElem?_readBytes]
  split <;> rfl

end

/-- The digits FX33 stores are the decimal digits of the byte (R153). -/
theorem decimalDigits_cases (b : Byte) : ∃ h t u : Byte, decimalDigits b = [h, t, u] ∧
    b.toNat = 100 * h.toNat + 10 * t.toNat + u.toNat ∧ h.toNat ≤ 2 ∧ t.toNat ≤ 9 ∧ u.toNat ≤ 9 := by
  have hb := b.isLt
  refine ⟨_, _, _, rfl, ?_⟩
  simp only [BitVec.toNat_ofNat]
  omega

/-- Settles O31: the three digits of the byte are what FX33 stores. -/
theorem decimalDigitsAreStored : Obligations.DecimalDigitsAreStored := by
  intro x s hwf hin
  obtain ⟨h, t, u, hdigits, hsum⟩ := decimalDigits_cases (s.getV x)
  have hexec : exec (.ldB x) s = s.accessing [h, t, u].length (s.storeBytes s.dataBase [h, t, u]) := by
    rw [← hdigits]
    rfl
  refine (completes_of_storing hexec hwf (Nat.succ_le_succ hin)).imp ?_
  rintro s' ⟨hsame, hread, hother⟩
  have h0 : s'.readByte s.dataBase = h := hread 0 (by simp)
  have h1 : s'.readByte (s.dataBase + 1) = t := hread 1 (by simp)
  have h2 : s'.readByte (s.dataBase + 2) = u := hread 2 (by simp)
  refine ⟨hsame, fun a ha => hother a fun ⟨hle, hlt⟩ => ha ⟨hle, Nat.le_of_lt_succ hlt⟩, ?_⟩
  rwa [h0, h1, h2]

/-- Settles O32: the bytes stored are the first `last + 1` of the register file. -/
theorem registersAreStored : Obligations.RegistersAreStored := by
  intro last s hlast hwf hin
  have hlen := s.length_take_v hlast
  have hexec : exec (.stRegs last) s =
      s.accessing (s.v.toList.take (last + 1)).length (s.storeBytes s.dataBase (s.v.toList.take (last + 1))) := by
    rw [hlen]
    rfl
  refine (completes_of_storing hexec hwf (by omega)).imp ?_
  rintro t ⟨hsame, hread, hother⟩
  refine ⟨hsame, fun r hr => ?_, fun a ha => hother a (by omega)⟩
  exact (hread r.val (by omega)).trans (s.getElem_take_v r _)

/-- Settles O33: each register of the block gets the byte of its number. -/
theorem registersAreLoaded : Obligations.RegistersAreLoaded := by
  intro last s _ hin
  refine ⟨_, State.accessing_in s _ (last + 1) (.inr (by omega)), State.withV_unchanged _, fun r => ?_⟩
  refine (Regs.getElem_load_readBytes s.dataBase (last + 1) r).trans ?_
  simp only [Nat.lt_succ_iff]

/-- Settles O34: the store leaves I, so the load reads the bytes at the addresses it stored. -/
theorem storeThenLoadRestoresRegisters : Obligations.StoreThenLoadRestoresRegisters := by
  intro last s v hlast hwf hin
  refine (registersAreStored last s hlast hwf hin).imp ?_
  rintro t ⟨hsame, hstored, -⟩
  have hbase : ({ t with v := v } : State).dataBase = s.dataBase := congrArg BitVec.toNat (hsame .idx (by decide))
  refine (registersAreLoaded last { t with v := v } hlast (by omega)).imp ?_
  rintro u ⟨-, hloaded⟩ r hr
  rw [hloaded, if_pos hr, hbase]
  exact hstored r hr

end Sys2Proof.Machine

/-! ## Display (43_display R170 to R175) -/

namespace Sys2Proof.Machine

section
variable {s t : State} {x y : Reg} {rows py px : Nat}

theorem State.withFb_unchanged (fb : Display) (b : Bool) :
    UnchangedExcept [.fb, .updated] s { s with fb := fb, updated := b } := by
  intro p hp
  have hsame := p.same_refl s
  cases p with
  | fb | updated => simp at hp
  | _ => exact hsame

/-- A flag written on top of other changes adds the registers to what changed (R22). -/
theorem UnchangedExcept.setFlag {changed : List Piece} (h : UnchangedExcept changed s t) (b : Bool) :
    UnchangedExcept (.v :: changed) s (t.setFlag b) := by
  intro p hp
  have hsame := h p fun hmem => hp (List.mem_cons_of_mem _ hmem)
  cases p with
  | v => simp at hp
  | _ => exact hsame

/-- Row `r` of the sprite is the byte at I + r (R171). -/
theorem State.getElem?_readBytes_dataBase {r : Nat} (hr : r < rows) :
    (s.readBytes s.dataBase rows)[r]?.getD 0 = s.readByte (s.dataBase + r) := by
  rw [State.readBytes, Memory.getElem?_readBytes, if_pos hr]
  rfl

/-- What the drawing loops take for a bit of the clipped sprite is the sprite of R173: row py - y0, bit px - x0. -/
theorem rowsCover_readBytes_iff :
    rowsCover (s.readBytes s.dataBase rows) ((s.getV y).toNat % 32) ((s.getV x).toNat % 64) py px = true ↔
      s.spriteCovers x y rows py px := by
  simp only [rowsCover, rowCovers, bitAt_spriteBits, Bool.and_eq_true, decide_eq_true_iff]
  constructor
  · rintro ⟨⟨hy, hpy⟩, ⟨hx, hpx⟩, hb, hbit⟩
    have hr : py - (s.getV y).toNat % 32 < rows := by
      by_contra hr
      rw [State.readBytes, Memory.getElem?_readBytes, if_neg hr] at hbit
      simp at hbit
    rw [State.getElem?_readBytes_dataBase hr] at hbit
    exact ⟨_, _, hr, hb, by omega, by omega, hpy, hpx, hbit⟩
  · rintro ⟨r, b, hr, hb, rfl, rfl, hpy, hpx, hbit⟩
    rw [Nat.add_sub_cancel_left, Nat.add_sub_cancel_left, State.getElem?_readBytes_dataBase hr]
    exact ⟨⟨Nat.le_add_right _ _, hpy⟩, ⟨Nat.le_add_right _ _, hpx⟩, hb, hbit⟩

/-- Drawing inverts every position of the clipped sprite (R173). -/
theorem State.pixel_drawSprite_of_covers (h : s.spriteCovers x y rows py px) :
    (s.drawSprite x y rows).fb.pixel py px = !s.fb.pixel py px := by
  rw [State.drawSprite, Canvas.pixel_drawRows, rowsCover_readBytes_iff.mpr h, Bool.xor_true]

/-- Drawing leaves every position outside the clipped sprite (R173). -/
theorem State.pixel_drawSprite_of_not_covers (h : ¬ s.spriteCovers x y rows py px) :
    (s.drawSprite x y rows).fb.pixel py px = s.fb.pixel py px := by
  rw [State.drawSprite, Canvas.pixel_drawRows,
    Bool.eq_false_iff.mpr (fun hcover => h (rowsCover_readBytes_iff.mp hcover)), Bool.xor_false]

/-- Drawing reports a collision exactly when a position of the clipped sprite was on (R173). -/
theorem State.hit_drawSprite_iff :
    (s.drawSprite x y rows).hit = true ↔ ∃ py px, s.spriteCovers x y rows py px ∧ s.fb.pixel py px = true := by
  simp only [State.drawSprite, Canvas.hit_drawRows, rowsCover_readBytes_iff, Bool.false_eq_true, false_or]

/-- The sprite and its place depend on the registers, on I and on the memory alone. -/
theorem State.spriteCovers_congr (hv : t.v = s.v) (hidx : t.idx = s.idx) (hmem : ∀ a, t.readByte a = s.readByte a) :
    t.spriteCovers x y rows py px ↔ s.spriteCovers x y rows py px := by
  simp only [State.spriteCovers, State.getV_congr s t hv, State.dataBase, hidx, hmem]

/-- `updated` is set after an instruction only if it was before, or if the instruction is 00E0 or DXYN (R175, D16). -/
theorem exec_updated_cases {i : Instr} (h : exec i s = .next t) (ht : t.updated = true) :
    s.updated = true ∨ i = .cls ∨ ∃ x y rows, i = .drw x y rows := by
  cases i with
  | cls => exact .inr (.inl rfl)
  | drw x y rows => exact .inr (.inr ⟨x, y, rows, rfl⟩)
  | ret =>
    obtain ⟨rfl, -⟩ | ⟨a, rest, -, rfl⟩ := execRet_cases h
    · simp at ht
    · exact .inl ht
  | ldF x =>
    obtain rfl | rfl := execLdF_cases h
    · simp at ht
    · exact .inl ht
  | ldB | stRegs | ldRegs =>
    obtain ⟨rfl, -⟩ | ⟨rfl, -⟩ := State.accessing_cases _ _ _ _ h
    · exact .inl ht
    · simp at ht
  | ldVxK x =>
    obtain ⟨rfl, -⟩ | ⟨k, -, rfl⟩ := execLdVxK_cases h
    · exact .inl ht
    · exact .inl ht
  | seImm | sneImm | seReg | sneReg | skp | sknp =>
    cases h
    rw [State.skipIf_updated] at ht
    exact .inl ht
  | _ => cases h; exact .inl ht

end

/-- Settles O41: the drawing inverts the clipped sprite, and the flag written is its collision. -/
theorem drawInvertsTheClippedSprite : Obligations.DrawInvertsTheClippedSprite := by
  intro x y rows s _ hin
  have hread := State.getV_setFlag { s with fb := (s.drawSprite x y rows).fb, updated := true }
  refine ⟨_, State.accessing_in s _ rows (by omega), (State.withFb_unchanged _ _).setFlag _, rfl, ?covered,
    ?uncovered, ?flag, fun r hr => ?others⟩
  case covered => exact fun py px => State.pixel_drawSprite_of_covers
  case uncovered => exact fun py px => State.pixel_drawSprite_of_not_covers
  case flag => exact flagSays_of_getV_eq_flagByte ((hread _ _).trans (if_pos rfl)) State.hit_drawSprite_iff
  case others => exact (hread _ _).trans (if_neg hr)

/-- Settles O42: the second draw finds the same sprite at the same place, and inverts each position back. -/
theorem drawTwiceRestoresTheDisplay : Obligations.DrawTwiceRestoresTheDisplay := by
  intro x y rows s hwf hin
  refine (drawInvertsTheClippedSprite x y rows s hwf hin).imp ?_
  rintro t ⟨hsame, -, hcovered, huncovered, -, -⟩
  have hidx : t.idx = s.idx := hsame .idx (by decide)
  have hcovers : ∀ py px, ({ t with v := s.v } : State).spriteCovers x y rows py px ↔ s.spriteCovers x y rows py px :=
    fun py px => State.spriteCovers_congr rfl hidx (hsame .mem (by decide))
  have hbase : ({ t with v := s.v } : State).dataBase = s.dataBase := congrArg BitVec.toNat hidx
  refine (drawInvertsTheClippedSprite x y rows { t with v := s.v } hwf (by rwa [hbase])).imp ?_
  rintro u ⟨-, -, hcovered', huncovered', hflag, -⟩
  simp only [hcovers] at hcovered' huncovered' hflag
  refine ⟨fun py px => ?_, ?_⟩
  · by_cases hc : s.spriteCovers x y rows py px
    · rw [hcovered' py px hc, hcovered py px hc, Bool.not_not]
    · rw [huncovered' py px hc, huncovered py px hc]
  · have hoff : ∀ py px, s.spriteCovers x y rows py px ∧ t.fb.pixel py px = true ↔
        s.spriteCovers x y rows py px ∧ s.fb.pixel py px = false :=
      fun py px => and_congr_right fun hc => by rw [hcovered py px hc, Bool.not_eq_true']
    simpa only [hoff] using hflag

/-- Settles O44: no other instruction sets `updated`, and one that raises clears it. -/
theorem updatedExactlyForClearAndDraw : Obligations.UpdatedExactlyForClearAndDraw := by
  intro i s t hs hf h
  constructor
  · intro ht
    refine ⟨?_, (exec_updated_cases h ht).resolve_left (Bool.eq_false_iff.mp hs)⟩
    by_contra hset
    obtain ⟨k, rfl, -⟩ := exec_raised h hf hset
    simp at ht
  · rintro ⟨hclear, rfl | ⟨x, y, rows, rfl⟩⟩
    · cases h
      rfl
    · obtain ⟨rfl, -⟩ | ⟨rfl, -⟩ := State.accessing_cases _ _ _ _ h
      · rfl
      · simp at hclear

/-- Settles O40: the blank display. -/
theorem clearTurnsEveryPixelOff : Obligations.ClearTurnsEveryPixelOff := fun s =>
  ⟨rfl, { s with fb := .blank, updated := true }, rfl, Display.pixel_blank, rfl, State.withFb_unchanged _ _⟩

end Sys2Proof.Machine

/-! ## Timers and keypad (44_timer_keypad R180 to R187) -/

namespace Sys2Proof.Machine

section
variable {s : State} {x : Reg}

theorem State.withDt_unchanged (b : Byte) : UnchangedExcept [.dt] s { s with dt := b } := by
  intro p hp
  have hsame := p.same_refl s
  cases p with
  | dt => simp at hp
  | _ => exact hsame

theorem State.withSt_unchanged (b : Byte) : UnchangedExcept [.st] s { s with st := b } := by
  intro p hp
  have hsame := p.same_refl s
  cases p with
  | st => simp at hp
  | _ => exact hsame

/-- What a dequeued TICK can touch: the queue and the timers (R187, log 2). -/
theorem State.withPending_withTimers_unchanged (rest : List CallerOp) (d b : Byte) :
    UnchangedExcept [.dt, .st, .rest] s { s with pending := rest, dt := d, st := b } := by
  intro p hp
  have hsame := p.same_refl s
  cases p with
  | dt | st | rest => simp at hp
  | _ => exact hsame

/-- What a skip on a condition does (R180, R181). -/
theorem completes_of_skipIf {i : Instr} {c : Bool} {p : Prop} (h : exec i s = .next (s.skipIf c)) (hc : c = true ↔ p) :
    Completes i s fun t => UnchangedExcept [.pc] s t ∧
      (p → t.pc.toNat = (s.pc.toNat + 2) % 65536) ∧ (¬ p → t.pc = s.pc) := by
  refine ⟨_, h, State.skipIf_unchanged c, fun hp => ?_, fun hp => ?_⟩
  · rw [State.skipIf_pc_toNat, if_pos (hc.mpr hp)]
  · rw [State.skipIf_pc, if_neg fun hon => hp (hc.mp hon)]

/-- With `k` the least key pressed, FX0A writes `k` to x[X] (R184). -/
theorem exec_ldVxK_of_pressed {k : Fin 16} (hk : s.keys[k] = true) (hlow : ∀ j : Fin 16, j < k → s.keys[j] = false) :
    exec (.ldVxK x) s = .next (s.setV x (BitVec.ofNat 8 k.val)) := by
  simp only [exec, execLdVxK, lowestPressed_some s.keys k hk hlow]

/-- With no key pressed, FX0A takes the advance of its STEP back (R184). -/
theorem exec_ldVxK_of_released (h : ∀ k : Fin 16, s.keys[k] = false) : exec (.ldVxK x) s = .next s.retreat := by
  simp only [exec, execLdVxK, lowestPressed_none s.keys h]

theorem State.retreat_unchanged : UnchangedExcept [.pc] s s.retreat := State.jump_unchanged (s.pc - 2)

/-- Back by 2 is forward by 65534, modulo 2^16 (R24). -/
theorem State.retreat_pc_toNat : s.retreat.pc.toNat = (s.pc.toNat + 65534) % 65536 := by
  rw [State.retreat_pc, BitVec.toNat_sub, Nat.add_comm]
  rfl

/-- The number of a key fits a byte. -/
theorem key_toNat (k : Fin 16) : (BitVec.ofNat 8 k.val).toNat = k.val :=
  (BitVec.toNat_ofNat k.val 8).trans (Nat.mod_eq_of_lt (by omega))

/-- From a begun STEP, the pc taken back is the one the STEP was fetched from (R73, R184). -/
theorem State.retreat_begin (keys : Keypad) (rnd : Byte) :
    (s.dequeue.begin keys rnd).retreat = (s.dequeue.begin keys rnd).jump s.pc := by
  have hpc : (s.dequeue.begin keys rnd).pc - 2 = s.pc := by
    rw [State.dequeue_eq]
    exact BitVec.add_sub_cancel s.pc 2
  exact congrArg (s.dequeue.begin keys rnd).jump hpc

end

/-- Settles O47, by the least key pressed and by the snapshot with none. -/
theorem keyWaitTakesTheLowestKey : Obligations.KeyWaitTakesTheLowestKey := by
  refine fun x s => ⟨rfl, fun k hk hlow => ?pressed, fun hoff => ?released⟩
  case pressed =>
    refine (completes_of_setV (exec_ldVxK_of_pressed hk hlow)).imp fun t ⟨hsame, hv⟩ => ⟨hsame, fun r => ?_⟩
    rw [hv, apply_ite BitVec.toNat, key_toNat]
  case released => exact ⟨_, exec_ldVxK_of_released hoff, State.retreat_pc_toNat, State.retreat_unchanged⟩

/-- Settles O48: the instruction takes back the advance of its own STEP. -/
theorem keyWaitWithoutKeyLeavesTheCore : Obligations.KeyWaitWithoutKeyLeavesTheCore := by
  intro s keys rnd x hstep hf hpc hd hoff
  refine ⟨(s.dequeue.begin keys rnd).jump s.pc, ?step, s.sameCore_jump_pc keys rnd, ?fault, rfl⟩
  case step => rw [step_of_decodeWord hstep hf hpc hd, exec_ldVxK_of_released hoff, State.retreat_begin]
  case fault =>
    rw [State.dequeue_eq]
    exact hf

/-- Settles O49, with the latch clear and with the latch set. -/
theorem tickDecrementsEachNonzeroTimer : Obligations.TickDecrementsEachNonzeroTimer := by
  intro s rest hp
  refine ⟨_, step_tick s rest hp, ?_⟩
  by_cases hf : s.fault = none
  · rw [State.tick_running { s with pending := rest } hf]
    exact ⟨rfl, State.withPending_withTimers_unchanged _ _ _, fun _ => ⟨tickDown_toNat _, tickDown_toNat _⟩,
      fun hset => absurd hf hset⟩
  · rw [State.tick_latched { s with pending := rest } hf]
    exact ⟨rfl, State.withPending_withTimers_unchanged rest s.dt s.st, fun hclear => absurd hclear hf,
      fun _ => ⟨rfl, rfl⟩⟩

/-- Settles O45: each is one write, of x[X], of DT or of ST. -/
theorem timerTransfers : Obligations.TimerTransfers := by
  refine fun x s => ⟨rfl, rfl, rfl, completes_of_setV rfl, ?ldDtVx, ?ldStVx⟩
  case ldDtVx => exact ⟨_, rfl, rfl, State.withDt_unchanged _⟩
  case ldStVx =>
    refine ⟨{ s with st := s.getV x }, rfl, rfl, ?_, State.withSt_unchanged _⟩
    simp [State.soundActive, bne, beq_eq_decide]

/-- Settles O46: EX9E skips on a pressed key, EXA1 on its negation. -/
theorem keySkipsFollowTheSnapshot : Obligations.KeySkipsFollowTheSnapshot := by
  intro x s
  refine ⟨rfl, rfl, completes_of_skipIf rfl (pressed_iff s.keys (s.getV x)), ?sknp⟩
  case sknp =>
    have hreleased : (!pressed s.keys (s.getV x)) = true ↔
        ¬ ∃ k : Fin 16, (s.getV x).toNat = k.val ∧ s.keys[k] = true := by
      rw [← pressed_iff, Bool.not_eq_true', Bool.not_eq_true]
    exact (completes_of_skipIf rfl hreleased).imp fun t ⟨hsame, hskip, hstay⟩ =>
      ⟨hsame, fun hon => hstay (not_not_intro hon), hskip⟩

end Sys2Proof.Machine

/-! ## The fatal conditions of a STEP (60_exceptions R200 to R205) -/

namespace Sys2Proof.Machine

/-- A fatal condition takes back the advance of the STEP it ends, and the latch apart the core is as before that STEP (R205, D8). -/
theorem State.sameCore_begin_raise (s : State) (keys : Keypad) (rnd : Byte) (k : Fatal) :
    SameCore s ((s.dequeue.begin keys rnd).raise k) := by
  rw [State.dequeue_eq]
  exact ⟨rfl, rfl, BitVec.add_sub_cancel s.pc 2, rfl, rfl, rfl, rfl, rfl, rfl⟩

/-- With the latch clear and the fetch in range, a STEP whose word matches no row raises that word (R201). -/
theorem step_of_decodeWord_none {s : State} {keys : Keypad} {rnd : Byte} (hstep : s.nextIsStep keys rnd)
    (hf : s.fault = none) (hpc : s.pc.toNat + 1 ≤ 0xFFF) (hd : decodeWord (s.wordAt s.pc.toNat) = none) :
    step s = .next ((s.dequeue.begin keys rnd).raise (.invalidInstruction (s.wordAt s.pc.toNat))) := by
  rw [step_of_nextIsStep s keys rnd hstep, State.dequeue_eq]
  exact State.runStep_invalid _ keys rnd hf hpc hd

/-- Settles O7: the state raised has the core of the state the STEP started from. -/
theorem invalidWordIsFatal : Obligations.InvalidWordIsFatal :=
  fun s keys rnd hstep hf hpc hd =>
    ⟨_, step_of_decodeWord_none hstep hf hpc hd, s.sameCore_begin_raise keys rnd _, rfl, rfl⟩

end Sys2Proof.Machine

/-! ## RESET (70_reset_and_hazards R230 to R232) -/

namespace Sys2Proof.Machine

/-- The byte of row `j` of glyph `g` in the font table (R52). -/
theorem fontByte_glyph (f : Font) (g : Fin 16) (j : Fin 5) : fontByte f (5 * g.val + j.val) = f[g][j] := by
  have hlt : 5 * g.val + j.val < 80 := by omega
  have hdiv : (5 * g.val + j.val) / 5 = g.val := by omega
  have hmod : (5 * g.val + j.val) % 5 = j.val := by omega
  simp only [fontByte, dif_pos hlt, hdiv, hmod, Fin.getElem_fin]

/-- The reset contents of memory hold glyph `g` from 0x050 + 5 `g` on (R51, R52). -/
theorem Memory.unlisted_glyph (f : Font) (g : Fin 16) (j : Fin 5) :
    Memory.unlisted f (0x050 + 5 * g.val + j.val) = f[g][j] := by
  have hrange : 0x050 ≤ 0x050 + 5 * g.val + j.val ∧ 0x050 + 5 * g.val + j.val ≤ 0x09F := by omega
  have hoffset : 0x050 + 5 * g.val + j.val - 0x050 = 5 * g.val + j.val := by omega
  rw [Memory.unlisted, if_pos hrange, hoffset, fontByte_glyph]

/-- The image reads as the program's byte `k` at its place. -/
theorem Memory.read_image_program (f : Font) (a k : Nat) (bs : List Byte) (h : k < bs.length) :
    Memory.read f (Memory.image f a bs) (a + k) = bs[k] := by
  simp [Memory.read_image, h]

/-- Off the program the image reads as the reset contents. -/
theorem Memory.read_image_outside (f : Font) (a q : Nat) (bs : List Byte) (h : q < a ∨ a + bs.length ≤ q) :
    Memory.read f (Memory.image f a bs) q = Memory.unlisted f q := by
  rw [Memory.read_image]
  by_cases hq : a ≤ q
  · rw [if_pos hq, List.getElem?_eq_none (by omega), Option.getD_none]
  · rw [if_neg hq]

/-- Settles O53: the next state is the state after reset with the image of the program in memory, and each address
reads as the image or, off the program, as the reset contents. -/
theorem resetSetsEveryPiece : Obligations.ResetSetsEveryPiece := by
  intro s program rest hp hl
  have hstep := step_reset s program rest hp
  rw [State.load_ok _ program hl] at hstep
  obtain ⟨hpc, hidx, hdt, hst, hstack, hfault, hv, hfb, -, -⟩ := resetStateIsAsStated
  refine ⟨_, hstep, hpc, hidx, hdt, hst, hstack, hfault, rfl, rfl, rfl, rfl, hv, hfb, ?program, ?font, ?zero⟩
  case program => exact fun k hk => Memory.read_image_program s.params.font 0x200 k program hk
  case font =>
    intro g j
    have hbelow : 0x050 + 5 * g.val + j.val < 0x200 := by omega
    exact (Memory.read_image_outside _ 0x200 _ program (.inl hbelow)).trans (Memory.unlisted_glyph _ g j)
  case zero =>
    intro a ha
    have hprogram : a < 0x200 ∨ 0x200 + program.length ≤ a := by omega
    have hfont : a < 0x050 ∨ 0x09F < a := by omega
    exact (Memory.read_image_outside _ 0x200 a program hprogram).trans (Memory.unlisted_outside_font _ a hfont)

/-- Settles O54: the rejection, taken by a core that holds a state and by one that holds none. -/
theorem tooLargeProgramChangesNothing : Obligations.TooLargeProgramChangesNothing := by
  refine fun program hl => ⟨fun s rest hp => ?_, fun p => State.boot_error p program hl⟩
  rw [step_reset s program rest hp, State.load_error _ program hl]

end Sys2Proof.Machine

/-! ## The fatal fetch, the state after a fatal condition, and the latch (60_exceptions R204 to R210) -/

namespace Sys2Proof.Machine

@[simp] theorem State.dequeue_fault (s : State) : s.dequeue.fault = s.fault := by
  unfold State.dequeue
  split <;> rfl

@[simp] theorem State.tick_fault (s : State) : s.tick.fault = s.fault := by
  by_cases hf : s.fault = none
  · rw [State.tick_running s hf]
  · rw [State.tick_latched s hf]

/-- RESET clears the latch where the program fits, and leaves it where it does not (R230, R232). -/
theorem State.load_fault (s : State) (program : List Byte) :
    (s.load program).fault = if program.length ≤ 3584 then none else s.fault := by
  by_cases hl : program.length ≤ 3584
  · rw [State.load_ok s program hl, if_pos hl]
    rfl
  · rw [State.load_error s program (Nat.lt_of_not_le hl), if_neg hl]

/-- With the latch clear and a byte of the word above 0xFFF, a STEP raises the lowest such address (R73, R204). -/
theorem step_of_fetch_out {s : State} {keys : Keypad} {rnd : Byte} (hstep : s.nextIsStep keys rnd)
    (hf : s.fault = none) (hpc : 0xFFF < s.pc.toNat + 1) :
    step s = .next ((s.dequeue.begin keys rnd).raise (.addressOutOfRange (max s.pc.toNat 0x1000))) := by
  rw [step_of_nextIsStep s keys rnd hstep, State.dequeue_eq]
  exact State.runStep_fetch _ keys rnd hf hpc

/-- Settles O8: at 0xFFF the second byte of the word is the first one out of range, and above it the byte at the pc is. -/
theorem fetchAboveMemoryIsFatal : Obligations.FetchAboveMemoryIsFatal := by
  intro s keys rnd hstep hf hpc
  have hlowest : max s.pc.toNat 0x1000 = if s.pc.toNat = 0xFFF then 0x1000 else s.pc.toNat := by
    split <;> omega
  rw [← hlowest]
  exact ⟨_, step_of_fetch_out hstep hf (by omega), s.sameCore_begin_raise keys rnd _, rfl, rfl⟩

/-- A STEP that sets the latch answers what `raise` makes of the state it began from. -/
theorem State.runStep_raised {s t : State} {keys : Keypad} {rnd : Byte} (h : s.runStep keys rnd = .next t)
    (hf : s.fault = none) (ht : t.fault ≠ none) : ∃ k, t = (s.begin keys rnd).raise k := by
  obtain ⟨hset, -⟩ | ⟨-, k, hraise, -⟩ | ⟨-, -, i, -, hexec⟩ := State.runStep_cases s t keys rnd h
  · exact absurd hf hset
  · exact ⟨k, hraise⟩
  · obtain ⟨k, hraise, -⟩ := exec_raised hexec hf ht
    exact ⟨k, hraise⟩

/-- Of the three operations only STEP sets the latch, and it does so by `raise` (R205). -/
theorem step_raised {s t : State} (h : step s = .next t) (hf : s.fault = none) (ht : t.fault ≠ none) :
    ∃ keys rnd k, t = (s.dequeue.begin keys rnd).raise k := by
  obtain ⟨keys, rnd, -, hrun⟩ | ⟨rest, -, rfl⟩ | ⟨program, rest, -, rfl⟩ := step_cases s t h
  · exact ⟨keys, rnd, State.runStep_raised hrun (s.dequeue_fault.trans hf) ht⟩
  · exact absurd ((State.tick_fault { s with pending := rest }).trans hf) ht
  · rw [State.load_fault, hf, ite_self] at ht
    exact absurd rfl ht

/-- Settles O9: the state raised has the core of the state the STEP started from. -/
theorem fatalStepChangesNothingElse : Obligations.FatalStepChangesNothingElse := by
  intro s t hf h ht
  obtain ⟨keys, rnd, k, rfl⟩ := step_raised h hf ht
  exact ⟨s.sameCore_begin_raise keys rnd k, rfl⟩

/-- Taking an operation from the queue and reporting no display update are no changes of the core. -/
theorem State.sameCore_dequeue_quiet (s : State) : SameCore s { s.dequeue with updated := false } := by
  rw [State.dequeue_eq]
  exact ⟨rfl, rfl, rfl, rfl, rfl, rfl, rfl, rfl, rfl⟩

/-- Settles O10, by the three operations: under a set latch a STEP and a TICK do nothing, and a RESET depends on whether
its program fits. -/
theorem latchHoldsUntilReset : Obligations.LatchHoldsUntilReset := by
  intro s hf
  obtain ⟨t, h⟩ := step_next s
  refine ⟨t, h, ?_⟩
  obtain ⟨keys, rnd, -, hrun⟩ | ⟨rest, -, rfl⟩ | ⟨program, rest, hp, rfl⟩ := step_cases s t h
  · have hlatched : s.dequeue.fault ≠ none := by rwa [State.dequeue_fault]
    rw [State.runStep_latched _ keys rnd hlatched] at hrun
    cases hrun
    exact .inl ⟨s.sameCore_dequeue_quiet, s.dequeue_fault⟩
  · rw [State.tick_latched { s with pending := rest } hf]
    exact .inl ⟨⟨rfl, rfl, rfl, rfl, rfl, rfl, rfl, rfl, rfl⟩, rfl⟩
  · by_cases hl : program.length ≤ 3584
    · exact .inr ⟨program, rest, hp, hl, (State.load_fault _ program).trans (if_pos hl)⟩
    · rw [State.load_error _ program (Nat.lt_of_not_le hl)]
      exact .inl ⟨⟨rfl, rfl, rfl, rfl, rfl, rfl, rfl, rfl, rfl⟩, rfl⟩

/-- Settles O11: both halves are laws of the model. -/
theorem everyStepAnswersANextState : Obligations.EveryStepAnswersANextState :=
  ⟨step_next, exec_next⟩

end Sys2Proof.Machine

/-! ## Subtraction and the random byte (41_alu R129, R131, R134) -/

namespace Sys2Proof.Machine

section
variable {a b : Byte}

theorem subtractFlag_notBorrow_iff : subtractFlag .notBorrow a b = true ↔ a.toNat ≥ b.toNat := decide_eq_true_iff

theorem subtractFlag_borrow_iff : subtractFlag .borrow a b = true ↔ a.toNat < b.toNat := decide_eq_true_iff

theorem sub_toNat (a b : Byte) : (a - b).toNat = (a.toNat + 256 - b.toNat) % 256 := by
  have hb := b.isLt
  rw [BitVec.toNat_sub]
  omega

/-- What an instruction does that writes `a - b` to x[X], then the flag of that subtraction: R129 and R131 differ in the
order of the operands alone. -/
theorem completes_of_subtraction {i : Instr} {s : State} {x : Reg}
    (h : exec i s = .next (s.setResult x (a - b) (subtractFlag s.params.subFlag a b))) :
    Completes i s fun t => UnchangedExcept [.v] s t ∧
      (s.params.subFlag = .notBorrow → FlagSays t (a.toNat ≥ b.toNat)) ∧
      (s.params.subFlag = .borrow → FlagSays t (a.toNat < b.toNat)) ∧
      ∀ r, r ≠ regF → (t.getV r).toNat =
        if r = x then (a.toNat + 256 - b.toNat) % 256 else (s.getV r).toNat := by
  refine (completes_of_setResult h Iff.rfl (sub_toNat a b)).imp fun t ⟨hsame, hflag, hv⟩ =>
    ⟨hsame, fun hp => ?notBorrow, fun hp => ?borrow, hv⟩
  case notBorrow => rwa [hp, subtractFlag_notBorrow_iff] at hflag
  case borrow => rwa [hp, subtractFlag_borrow_iff] at hflag

/-- A byte with no bit outside a mask is left as it is by the mask. -/
theorem and_eq_self_of_and_not_eq_zero (h : a &&& ~~~b = 0) : a &&& b = a := by
  ext k hk
  have hbit : a[k] = true → b[k] = true := by simpa [hk] using congrArg (·[k]) h
  rw [BitVec.getElem_and, Bool.and_eq_left_iff_imp.mpr hbit]

end

/-- Settles O24: 8XY5 subtracts x[Y] from x[X], 8XY7 x[X] from x[Y]. -/
theorem subtractionsWriteDifferenceThenBorrow : Obligations.SubtractionsWriteDifferenceThenBorrow := fun _ _ _ =>
  ⟨completes_of_subtraction rfl, completes_of_subtraction rfl⟩

/-- Settles O26: a value with no bit outside NN is reached by that value as the random byte. -/
theorem randomByteIsMasked : Obligations.RandomByteIsMasked := by
  refine fun x nn s => ⟨(completes_of_setV rfl).imp fun t ⟨hsame, hv⟩ => ⟨hsame, fun k _ => ?bits, fun r hr => ?others⟩,
    fun v hmask => ⟨v, (completes_of_setV rfl).imp fun t ⟨_, hv⟩ => ?possible⟩⟩
  case bits => rw [hv, if_pos rfl, BitVec.getLsbD_and]
  case others => rw [hv, if_neg hr]
  case possible =>
    rw [hv, if_pos rfl]
    exact and_eq_self_of_and_not_eq_zero hmask

end Sys2Proof.Machine

/-! ## The range of a data access, the form of memory, and the store before a fetch (20_memory R57, R60, R62) -/

namespace Sys2Proof.Machine

section
variable {s : State}

/-- An accessing instruction that touches a byte above 0xFFF raises the lowest such address (R57, R156). -/
theorem raises_of_accessing_out {i : Instr} {e : State} {n : Nat} (h : exec i s = s.accessing n e) (hn : n ≠ 0)
    (hout : 0x1000 < s.dataBase + n) : Raises i s (.addressOutOfRange (max s.dataBase 0x1000)) :=
  raises_of_exec_eq_raise (h.trans (State.accessing_out s e n hn hout))

/-- With the pc put at an address inside memory, the fetch reads the word there (R54). -/
theorem State.fetch_withPc (a : Nat) (ha : a + 1 ≤ 0xFFF) :
    { s with pc := BitVec.ofNat 16 a }.fetch = .ok (joinBytes (s.readByte a) (s.readByte (a + 1))) := by
  have hpc : (BitVec.ofNat 16 a).toNat = a := (BitVec.toNat_ofNat a 16).trans (Nat.mod_eq_of_lt (by omega))
  refine (State.fetch_ok { s with pc := BitVec.ofNat 16 a } ?_).trans ?_
  · rwa [hpc]
  · rw [hpc]
    rfl

end

/-- Settles O35: FX33 touches 3 bytes, FX55 and FX65 `n + 1`, DXYN `n`. -/
theorem accessAboveMemoryIsFatal : Obligations.AccessAboveMemoryIsFatal := by
  refine fun x y n s => ⟨fun hout => ?ldB, fun hout => ?stRegs, fun hout => ?ldRegs, fun hn hout => ?drw⟩
  case ldB => exact raises_of_accessing_out rfl (by decide) (Nat.succ_lt_succ hout)
  case stRegs | ldRegs => exact raises_of_accessing_out rfl n.succ_ne_zero (Nat.succ_lt_succ hout)
  case drw => exact raises_of_accessing_out (n := n) rfl (by omega) (by omega)

/-- Settles O38: what a canonical memory lists is determined by what it reads as. -/
theorem memoriesThatReadAlikeAreEqual : Obligations.MemoriesThatReadAlikeAreEqual := by
  intro f m n hm hn hread
  refine Memory.eq_of_lookup m n hm.1 hn.1 fun a => ?_
  rw [Memory.lookup_eq f m a hm, Memory.lookup_eq f n a hn, hread a]

/-- Settles O39: the two bytes fetched are those of two neighbouring registers of the block. -/
theorem storeIsSeenByTheFetch : Obligations.StoreIsSeenByTheFetch := by
  intro last s hlast hwf hin
  refine (registersAreStored last s hlast hwf hin).imp ?_
  rintro t ⟨-, hstored, -⟩ r q hq hle
  have hr : t.readByte (s.dataBase + r.val) = s.getV r := hstored r (by omega)
  have hnext : t.readByte (s.dataBase + r.val + 1) = s.getV q := by
    rw [Nat.add_assoc, ← hq]
    exact hstored q hle
  rw [State.fetch_withPc _ (by omega), hr, hnext]

end Sys2Proof.Machine

/-! ## Sample words (95_test_vectors section 2.1) -/

namespace Sys2Proof

/-- Settles O4, by running the decoder on each word. -/
theorem sampleWordsDecodeAsWritten : Obligations.SampleWordsDecodeAsWritten := by
  unfold Obligations.SampleWordsDecodeAsWritten
  decide

end Sys2Proof
